-- ==== Sys2Proof/Word.lean ====
section
/-! DEFINITION. The word type and its plainest arithmetic (00_scope.md R6, R10, R11). -/

namespace Sys2Proof

/-- A 32-bit unsigned value: an interval endpoint, a pattern, a mask or a register (R6). -/
abbrev Word := BitVec 32

/-- One bus byte lane (20_memory.md R72). -/
abbrev Byte := BitVec 8

/-- `MAX`, the domain maximum 0xFFFFFFFF (R6). -/
abbrev maxWord : Word := 0xFFFFFFFF#32

/-- `ONES(k)`: bits 31..k set and bits k-1..0 clear (R11). -/
def ones (k : Nat) : Word := maxWord <<< k

end Sys2Proof
end

