-- ==== Sys2Proof/Config.lean ====
section
/-! DEFINITION. What an implementation fixes (00_scope.md R6 to R9) and the free values. -/

namespace Sys2Proof

/-- `CAPACITY`: the entries one RuleSet can hold (00_scope.md R7). -/
abbrev Config.capacity : Nat := 32

/-- The number of 0x400-byte blocks below the window: `R2M_BASE / 0x400`, OPEN (00_scope.md R8). -/
opaque Config.baseBlock : Nat

/-- `LAT_MAX - 1`, OPEN (00_scope.md R9): `LAT_MAX` is a positive natural number. -/
opaque Config.latMaxPred : Nat

/-- `draw()`: the value of the n-th undefined read, under no law (00_scope.md R12). A free value. -/
opaque Config.draw : Nat → Word

/-- What host variable `v` holds before any line has written it: 30_encoding.md R108 says nothing
of it. A free value (log entry 15). -/
opaque Config.hostVar : Nat → Word

/-- The parameters a model takes as arguments (00_scope.md R7 to R9). They stand in State, and no
step writes them, so that every statement holds for every choice of them (log entry 1). -/
structure Params where
  /-- `HAS_SELECT` (R7). -/
  hasSelect : Bool
  /-- `R2M_BASE / 0x400` (R8). -/
  baseBlock : Nat
  /-- `LAT_MAX - 1` (R9). -/
  latMaxPred : Nat
  deriving DecidableEq, Repr

/-- `R2M_BASE`, a multiple of 0x400 by construction (00_scope.md R8, 20_memory.md R71). -/
def Params.base (p : Params) : Nat := 0x400 * p.baseBlock

/-- `LAT_MAX`, positive by construction (00_scope.md R9). -/
def Params.latMax (p : Params) : Nat := p.latMaxPred + 1

/-- The parameters of this hardware: `HAS_SELECT = true` (00_scope.md R7), the others OPEN. -/
def Config.params : Params := ⟨true, Config.baseBlock, Config.latMaxPred⟩

end Sys2Proof
end

