-- ==== Sys2Proof/Syntax.lean ====
section
/-! DEFINITION. The two commands, the registers of the window, bus transactions and the host's
lines (30_encoding.md R100 to R109, 10_state.md R33). -/

namespace Sys2Proof

/-- The commands of spec/opcode_table.json. Neither has an operand field: both take ST and END
whole (30_encoding.md R102). -/
inductive Instr where
  /-- CONVERT (30_encoding.md R103). -/
  | convert
  /-- SELECT (30_encoding.md R104). -/
  | select
  deriving DecidableEq, Repr

/-- The registers of the window (10_state.md R33). -/
inductive Reg where
  | cmd
  | status
  | st
  | fin
  | result
  | countA
  | countB
  | caps
  | aPatt (n : Fin 32)
  | aMask (n : Fin 32)
  | bPatt (n : Fin 32)
  | bMask (n : Fin 32)
  deriving DecidableEq, Repr

/-- The direction of a bus transaction (30_encoding.md R101). -/
inductive Dir where
  | read
  | write
  deriving DecidableEq, Repr

/-- A bus transaction as the block sees it (30_encoding.md R101). `data` is the host's on a write
and unused on a read. -/
structure Txn where
  dir : Dir
  off : BitVec 10
  size : Nat
  data : Word
  deriving DecidableEq, Repr

/-- A bus access before address decoding: an absolute address and byte lanes (20_memory.md R71,
R72). `lanes` is what a write drives, lane 0 at the lowest address. -/
structure Access where
  dir : Dir
  addr : Nat
  size : Nat
  lanes : List Byte
  deriving DecidableEq, Repr

/-- A line of the host's program (30_encoding.md R108). Variables and labels are numbered. -/
inductive HostLine where
  /-- `wr REG, imm32`. -/
  | wr (r : Reg) (imm : Word)
  /-- `rd REG -> vN`. -/
  | rd (r : Reg) (v : Nat)
  /-- `wr @off, imm32`. -/
  | wrRaw (off : BitVec 10) (imm : Word)
  /-- `rd @off -> vN`. -/
  | rdRaw (off : BitVec 10) (v : Nat)
  /-- `label:`, which names the next line. -/
  | label (l : Nat)
  /-- `beq vN, imm, label`. -/
  | beq (v : Nat) (imm : Word) (l : Nat)
  /-- `bne vN, imm, label`. -/
  | bne (v : Nat) (imm : Word) (l : Nat)
  /-- `and vN, vM, imm`. -/
  | and (d m : Nat) (imm : Word)
  deriving DecidableEq, Repr

end Sys2Proof
end

