-- ==== Sys2Proof/WellFormed.lean ====
section
/-! DEFINITION. Which commands, transactions and host programs are well formed. -/

namespace Sys2Proof

/-- A command is well formed on hardware that has it: SELECT only when `HAS_SELECT`
(30_encoding.md R103, R104). -/
def Instr.wf (p : Params) : Instr → Bool
  | .convert => true
  | .select => p.hasSelect

/-- An offset in one of the two reserved ranges 0x020..0x0FF and 0x300..0x3FF (20_memory.md R77). -/
def reservedOff (off : BitVec 10) : Bool :=
  (0x020#10 ≤ off && off ≤ 0x0FF#10) || 0x300#10 ≤ off

/-- A legal transaction: 4 bytes, aligned, at an offset that holds a register
(30_encoding.md R101, 20_memory.md R73, R77). -/
def Txn.wf (t : Txn) : Bool :=
  t.size == 4 && t.off.toNat % 4 == 0 && !reservedOff t.off

/-- The labels a host program declares, in order. -/
def hostLabels : List HostLine → List Nat
  | [] => []
  | .label l :: p => l :: hostLabels p
  | _ :: p => hostLabels p

/-- The label a line branches to. -/
def HostLine.target : HostLine → Option Nat
  | .beq _ _ l => some l
  | .bne _ _ l => some l
  | .wr .. | .rd .. | .wrRaw .. | .rdRaw .. | .label _ | .and .. => none

/-- Every label is declared once and every branch names a declared label (30_encoding.md R108). -/
def hostProgramWf (p : List HostLine) : Bool :=
  decide (hostLabels p).Nodup && p.all fun x => x.target.all fun l => (hostLabels p).contains l

end Sys2Proof
end

