-- ==== Sys2Proof/Decode.lean ====
section
/-! DEFINITION. The command decoder, total on any bytes, its encoder, the byte lanes and the
offset map of the window (30_encoding.md R100 to R107, 10_state.md R33, 20_memory.md R72). -/

namespace Sys2Proof

/-- Why a command word is no command (30_encoding.md R105). -/
inductive DecodeError where
  /-- Not exactly four bytes: no 32-bit command word (30_encoding.md R102). -/
  | wrongLength
  /-- A nonzero bit in [31:4]. -/
  | rsvdNonzero
  /-- `RSVD` is 0 and `OP` is neither 0x1 nor 0x2. -/
  | opIllegal
  deriving DecidableEq, Repr

/-- `CMD.OP`, bits [3:0] (10_state.md R34). -/
def opField (w : Word) : BitVec 4 := w.extractLsb' 0 4

/-- `CMD.RSVD`, bits [31:4] (10_state.md R34). -/
def rsvdField (w : Word) : BitVec 28 := w.extractLsb' 4 28

/-- A row of the opcode table: the word matches when `w AND mask = pattern`. -/
structure OpcodeRow where
  pattern : Word
  mask : Word
  instr : Instr
  deriving DecidableEq, Repr

/-- spec/opcode_table.json (30_encoding.md R103, R104). -/
def opcodeTable : List OpcodeRow :=
  [⟨0x00000001#32, 0xFFFFFFFF#32, .convert⟩, ⟨0x00000002#32, 0xFFFFFFFF#32, .select⟩]

/-- The instruction of the first row that matches. -/
def lookupRow (w : Word) : List OpcodeRow → Option Instr
  | [] => none
  | r :: rs => if w &&& r.mask = r.pattern then some r.instr else lookupRow w rs

/-- The command decoder on a whole word (30_encoding.md R103 to R106). Whether SELECT is present is
decided by its meaning, not here. -/
def decodeWord (w : Word) : Except DecodeError Instr :=
  match lookupRow w opcodeTable with
  | some i => .ok i
  | none => if rsvdField w ≠ 0#28 then .error .rsvdNonzero else .error .opIllegal

/-- Byte `j` of a word: register bits 8j+7 to 8j (20_memory.md R72). -/
def byteLane (w : Word) (j : Nat) : Byte := w.extractLsb' (8 * j) 8

/-- The four byte lanes of a word, lane 0 at the lowest address (20_memory.md R72). -/
def toLanes (w : Word) : List Byte := [byteLane w 0, byteLane w 1, byteLane w 2, byteLane w 3]

/-- The word that four byte lanes carry, lane 0 first; lanes not driven count as 0 and lanes past
the fourth are not looked at (only a four-lane access succeeds, 20_memory.md R73). -/
def ofLanes (bs : List Byte) : Word :=
  match bs with
  | [] => 0#32
  | [a] => a.setWidth 32
  | [a, b] => (b ++ a).setWidth 32
  | [a, b, c] => (c ++ (b ++ a)).setWidth 32
  | a :: b :: c :: d :: _ => d ++ (c ++ (b ++ a))

/-- The decoder on bytes: a command word is exactly four bytes (30_encoding.md R101, R102). -/
def decode (bs : List Byte) : Except DecodeError Instr :=
  if bs.length = 4 then decodeWord (ofLanes bs) else .error .wrongLength

/-- The command word of an instruction (30_encoding.md R103, R104): its `OP` under 28 zero bits. -/
def Instr.op : Instr → BitVec 4
  | .convert => 0x1#4
  | .select => 0x2#4

/-- The encoder: `RSVD = 0`, then `OP` (30_encoding.md R102). -/
def encode (i : Instr) : Word := 0#28 ++ i.op

/-- The bytes of an instruction's command word, in bus order (20_memory.md R72). -/
def encodeBytes (i : Instr) : List Byte := toLanes (encode i)

/-- The instruction the decoder reads from the low `nbits` bits of `w`, every higher bit 0. -/
def decodeTableWord (nbits w : Nat) : Option Instr :=
  match decode (toLanes (BitVec.ofNat 32 (w % 2 ^ nbits))) with
  | .ok i => some i
  | .error _ => none

/-- The offset of a register in the window (10_state.md R33). -/
def Reg.offset : Reg → BitVec 10
  | .cmd => 0x000#10
  | .status => 0x004#10
  | .st => 0x008#10
  | .fin => 0x00C#10
  | .result => 0x010#10
  | .countA => 0x014#10
  | .countB => 0x018#10
  | .caps => 0x01C#10
  | .aPatt n => BitVec.ofNat 10 (0x100 + 8 * n.val)
  | .aMask n => BitVec.ofNat 10 (0x104 + 8 * n.val)
  | .bPatt n => BitVec.ofNat 10 (0x200 + 8 * n.val)
  | .bMask n => BitVec.ofNat 10 (0x204 + 8 * n.val)

/-- The slot number of an offset: bits [7:3]. -/
def slotIndex (off : BitVec 10) : Fin 32 := (off.extractLsb' 3 5).toFin

/-- The register at an offset of the window; `none` where it is not a multiple of 4 or reserved
(10_state.md R33, 20_memory.md R73, R77). -/
def decodeOffset (off : BitVec 10) : Option Reg :=
  if off.extractLsb' 0 2 ≠ 0#2 then none
  else
    match (off.extractLsb' 8 2).toNat with
    | 0 =>
      match off.toNat with
      | 0x000 => some .cmd
      | 0x004 => some .status
      | 0x008 => some .st
      | 0x00C => some .fin
      | 0x010 => some .result
      | 0x014 => some .countA
      | 0x018 => some .countB
      | 0x01C => some .caps
      | _ => none
    | 1 => some (if off.getLsbD 2 then .aMask (slotIndex off) else .aPatt (slotIndex off))
    | 2 => some (if off.getLsbD 2 then .bMask (slotIndex off) else .bPatt (slotIndex off))
    | _ => none

end Sys2Proof
end

