-- ==== Sys2Proof/Machine/State.lean ====
section
/-! DEFINITION. The state of the machine as plain data (10_state.md R30 to R55), its reset value
(70_reset_and_hazards.md R211), and the reasons a step can stop. -/

namespace Sys2Proof.Machine

/-- Why the machine stops with a fault. -/
inductive Fault where
  /-- A line of the host's program made an access the block answers with BusError: the spec has a
  model treat it as a fault of the host program (60_exceptions.md R184, 93 U8). Raised by a host
  turn. Safe: the host may go on in hardware. -/
  | busError
  /-- A host access in progress while reset is applied (70_reset_and_hazards.md R213, 93 U7). Raised
  by the turn that holds both. Safe: the spec gives no effect. -/
  | accessDuringReset
  deriving DecidableEq, Repr

/-- Why the machine has no meaning for what comes next. -/
inductive Refusal where
  /-- An instruction the model gives no meaning, by its mnemonic. Raised by `exec`. Safe. -/
  | notModelled (mnemonic : String)
  /-- An access to an address outside the window: "what they do is the platform's"
  (20_memory.md R71). Raised by an access turn. Safe. -/
  | outsideWindow
  /-- A host line branches to a label its program does not declare (30_encoding.md R108). Raised by
  a host turn. Safe: such a program has no meaning in the notation. -/
  | undeclaredLabel
  deriving DecidableEq, Repr

/-- `STATUS.STATE` (10_state.md R35). -/
inductive CmdState where
  /-- No command has been accepted since reset. -/
  | idle
  /-- A command is in flight. -/
  | busy
  /-- The last command completed successfully. -/
  | done
  /-- The last command failed, or its word was illegal. -/
  | error
  deriving DecidableEq, Repr

/-- The codes that a failing computation reports (40_convert.md R121). -/
inductive FailCode where
  | rangeTooLarge
  | capacityExceeded
  deriving DecidableEq, Repr

/-- `STATUS.ERR`; codes 4 to 15 are never produced (10_state.md R36). -/
inductive ErrCode where
  | none
  | rangeTooLarge
  | capacityExceeded
  | illegalCmd
  deriving DecidableEq, Repr

/-- `RESULT.KIND` (10_state.md R41). -/
inductive ResultKind where
  | direct
  | split
  deriving DecidableEq, Repr

/-- A (pattern, mask) pair (00_scope.md R13). -/
structure Entry where
  pattern : Word
  mask : Word
  deriving DecidableEq, Repr

/-- The result of `convert` (40_convert.md R121). -/
inductive ConvertResult where
  | ok (entries : List Entry)
  | fail (code : FailCode)
  deriving DecidableEq, Repr

/-- The result of a command (10_state.md R53). -/
inductive CmdResult where
  | direct (entries : List Entry)
  | split (reject accept : List Entry)
  | fail (code : FailCode)
  deriving DecidableEq, Repr

/-- The working values of one outer iteration (10_state.md R49). -/
structure Work where
  patt : Word
  mask : Word
  i : Word
  deriving DecidableEq, Repr

/-- Which `convert` of `select` the engine is in (41_select.md R161 lines 1, 4 and 5). CONVERT has
the first alone. -/
inductive Pass where
  | direct
  | reject
  | accept
  deriving DecidableEq, Repr

/-- The engine's position inside a computation (10_state.md R32), by the lines of
40_convert.md R121 and 41_select.md R161. -/
inductive EnginePos where
  /-- Lines 1 and 2 of `convert`. -/
  | start
  /-- Lines 3 and 4: the outer test. -/
  | outer
  /-- Lines 5 to 8: the strip loop. -/
  | strip
  /-- Lines 9 to 12: the retract loop. -/
  | retract
  /-- Lines 13 to 16: the capacity check and what follows it. -/
  | append
  /-- Lines 6 and 7 of `select`. -/
  | compare
  /-- The computation has its result. -/
  | finished (r : CmdResult)
  deriving DecidableEq, Repr

/-- The engine's working registers (10_state.md R49, R32). -/
structure Engine where
  pass : Pass
  pos : EnginePos
  work : Work
  /-- The entry list under construction; `n` of R49 is its length. -/
  list : List Entry
  /-- The sub-results of `select` (41_select.md R161): `d.L`, `r.L` and `a.L`. -/
  direct : List Entry
  reject : List Entry
  accept : List Entry
  deriving DecidableEq, Repr

/-- What the block answers to a bus access (30_encoding.md R101, 60_exceptions.md R184). -/
inductive BusResponse where
  /-- A read, with the data returned. -/
  | data (v : Word)
  /-- A write that succeeded as a bus access. -/
  | written
  /-- BusError. -/
  | busError
  deriving DecidableEq, Repr

/-- The host agent: its program, the line it is at, and its variables, by number, each once, in
rising order (30_encoding.md R108). -/
structure HostAgent where
  prog : List HostLine
  pc : Nat
  vars : List (Nat × Word)
  deriving DecidableEq, Repr

/-- Who moves next in the total order (20_memory.md R81). -/
inductive Turn where
  /-- The host executes its next line (30_encoding.md R108). -/
  | host
  /-- An access by any bus master, at an offset of the window (30_encoding.md R101). -/
  | bus (t : Txn)
  /-- An access by any bus master, at an absolute address (20_memory.md R71). -/
  | access (a : Access)
  /-- An engine cycle that does not complete the command, unless it is the last that `LAT_MAX`
  allows (70_reset_and_hazards.md R222). -/
  | cycle
  /-- The engine's completion step (10_state.md R53). -/
  | complete
  /-- The reset event (70_reset_and_hazards.md R210). -/
  | reset
  /-- Reset applied while an access is in progress (70_reset_and_hazards.md R213). -/
  | resetDuring (t : Txn)
  deriving DecidableEq, Repr

/-- The state of the machine. -/
structure State where
  /-- The parameters of this hardware; no step writes them (00_scope.md R7 to R9). -/
  params : Params
  /-- `STATUS.STATE` (10_state.md R35). -/
  cstate : CmdState
  /-- `STATUS.ERR` (10_state.md R36). -/
  err : ErrCode
  /-- `STATUS.OVR` (10_state.md R37). -/
  ovr : Bool
  /-- ST (10_state.md R39). -/
  stReg : Word
  /-- END (10_state.md R40). -/
  endReg : Word
  /-- `RESULT.KIND` (10_state.md R41). -/
  kind : ResultKind
  /-- `COUNT_A.N` (10_state.md R42). -/
  countA : BitVec 6
  /-- `COUNT_B.N` (10_state.md R43). -/
  countB : BitVec 6
  /-- Buffer A (10_state.md R45). -/
  bufA : Vector Entry 32
  /-- Buffer B (10_state.md R46). -/
  bufB : Vector Entry 32
  /-- `op_l` (10_state.md R48). -/
  opL : Instr
  /-- `st_l` (10_state.md R48). -/
  stL : Word
  /-- `end_l` (10_state.md R48). -/
  endL : Word
  /-- The engine's working registers (10_state.md R49). -/
  engine : Engine
  /-- The model's own: engine cycles since acceptance (log entry 3). -/
  elapsed : Nat
  /-- The model's own: undefined reads answered so far (log entry 6). -/
  draws : Nat
  /-- The model's own: the block's answer to the last access (log entry 14). -/
  response : Option BusResponse
  /-- The host agent (30_encoding.md R108). -/
  host : HostAgent
  /-- The model's own: the turns to come (log entry 4). -/
  schedule : List Turn
  deriving DecidableEq, Repr

/-- An entry of zeros: the raw contents of an unwritten slot (log entry 7). -/
def Entry.zero : Entry := ⟨0#32, 0#32⟩

/-- The working registers after reset, which the spec leaves unspecified (log entry 8). -/
def Engine.reset : Engine :=
  { pass := .direct, pos := .start, work := ⟨0#32, 0#32, 0#32⟩, list := [], direct := [],
    reject := [], accept := [] }

/-- The machine right after reset (70_reset_and_hazards.md R211), with no host program loaded and
no turn scheduled. -/
def State.reset : State :=
  { params := Config.params
    cstate := .idle
    err := .none
    ovr := false
    stReg := 0#32
    endReg := 0#32
    kind := .direct
    countA := 0#6
    countB := 0#6
    bufA := Vector.replicate 32 Entry.zero
    bufB := Vector.replicate 32 Entry.zero
    opL := .convert
    stL := 0#32
    endL := 0#32
    engine := Engine.reset
    elapsed := 0
    draws := 0
    response := none
    host := ⟨[], 0, []⟩
    schedule := [] }

end Sys2Proof.Machine
end

