-- ==== Sys2Proof/Machine/Flags.lean ====
section
/-! DEFINITION. STATUS and the other read-only words: their fields as bits, and the tests the rules
make on them (10_state.md R35 to R47). -/

namespace Sys2Proof.Machine

/-- `STATUS.STATE` as bits [1:0] (10_state.md R35). -/
def CmdState.bits : CmdState → BitVec 2
  | .idle => 0#2
  | .busy => 1#2
  | .done => 2#2
  | .error => 3#2

/-- `STATUS.ERR` as bits [7:4] (10_state.md R36). -/
def ErrCode.bits : ErrCode → BitVec 4
  | .none => 0#4
  | .rangeTooLarge => 1#4
  | .capacityExceeded => 2#4
  | .illegalCmd => 3#4

/-- The error code of a failing computation (60_exceptions.md R181, R182). -/
def FailCode.err : FailCode → ErrCode
  | .rangeTooLarge => .rangeTooLarge
  | .capacityExceeded => .capacityExceeded

/-- `RESULT.KIND` as bit [0] (10_state.md R41). -/
def ResultKind.bits : ResultKind → BitVec 1
  | .direct => 0#1
  | .split => 1#1

/-- A command is in flight: `STATUS.STATE = BUSY`. -/
def State.busy (s : State) : Bool := s.cstate == .busy

/-- The engine's hidden phase is RUNNING (10_state.md R50). -/
def State.running (s : State) : Bool := s.busy

/-- A read of STATUS: `STATE | (ERR << 4) | (OVR << 8)` (10_state.md R38). -/
def State.statusWord (s : State) : Word :=
  s.cstate.bits.setWidth 32 ||| (s.err.bits.setWidth 32 <<< 4) |||
    ((BitVec.ofBool s.ovr).setWidth 32 <<< 8)

/-- OVR after a write of `v` to STATUS: write 1 to clear, bit 8 only (10_state.md R37, R38). -/
def ovrAfterStatusWrite (ovr : Bool) (v : Word) : Bool :=
  if v.getLsbD 8 then false else ovr

/-- A read of RESULT outside BUSY (10_state.md R41). -/
def State.resultWord (s : State) : Word := s.kind.bits.setWidth 32

/-- A read of CAPS: CAPACITY in bits [7:0], SELECT in bit [8] (10_state.md R44). -/
def State.capsWord (s : State) : Word :=
  BitVec.ofNat 32 Config.capacity ||| ((BitVec.ofBool s.params.hasSelect).setWidth 32 <<< 8)

/-- Slot `n` of a buffer with count `c` holds a defined value (10_state.md R47): the state is DONE
and the count is greater than `n`. An acceptance or a reset leaves DONE, so "since that completion"
holds by itself. -/
def State.slotDefined (s : State) (c : BitVec 6) (n : Fin 32) : Bool :=
  s.cstate == .done && n.val < c.toNat

end Sys2Proof.Machine
end

