-- ==== Sys2Proof/Machine/Operands.lean ====
section
/-! DEFINITION. The operands a command takes at acceptance, the arguments of each `convert` it
needs, and the working-register operations of 40_convert.md R121. -/

namespace Sys2Proof.Machine

/-- The working registers at line 4, for cursor `c` (40_convert.md R121, R146). -/
def Work.atCursor (c : Word) : Work := { patt := c, mask := maxWord, i := 1#32 }

/-- The strip test of line 5. -/
def Work.canStrip (w : Work) : Bool := w.patt &&& w.i != 0#32

/-- Lines 6 to 8: one strip round (40_convert.md R124). -/
def Work.stripRound (w : Work) : Work :=
  { patt := w.patt &&& ~~~w.i, mask := w.mask <<< 1, i := w.i <<< 1 }

/-- Lines 10 to 12: one retract round (40_convert.md R125). -/
def Work.retractRound (w : Work) : Work :=
  { patt := w.patt ||| (w.i >>> 1), mask := w.mask ||| (w.i >>> 1), i := w.i >>> 1 }

/-- The strip loop of lines 5 to 8, at most `fuel` rounds. -/
def Work.strip : (fuel : Nat) → Work → Work
  | 0, w => w
  | fuel + 1, w => if w.canStrip then Work.strip fuel w.stripRound else w

/-- The retract loop of lines 9 to 12 for the lower endpoint `st`, at most `fuel` rounds. -/
def Work.retract (st : Word) : (fuel : Nat) → Work → Work
  | 0, w => w
  | fuel + 1, w => if w.patt < st then Work.retract st fuel w.retractRound else w

/-- Lines 4 to 12: the block of one outer iteration. 32 rounds are enough for each loop: the strip
loop's `i` is 0 after 32 (40_convert.md R124), and the retract loop undoes at most the strip rounds
made (R125); log entry 20. -/
def Work.iteration (st c : Word) : Work :=
  Work.retract st 32 (Work.strip 32 (Work.atCursor c))

/-- The entry that line 14 appends. -/
def Work.entry (w : Work) : Entry := ⟨w.patt, w.mask⟩

/-- The lower endpoint of a pass of `select`; CONVERT has the direct pass alone (41_select.md R161
lines 1, 4, 5). -/
def Pass.lo : Pass → Word → Word
  | .direct, st => st
  | .reject, _ => 0#32
  | .accept, _ => 0#32

/-- The upper endpoint of a pass of `select` (41_select.md R161 lines 1, 4, 5). `st - 1` is used
only where `st` is not 0 (R164). -/
def Pass.hi : Pass → Word → Word → Word
  | .direct, _, fin => fin
  | .reject, st, _ => st - 1#32
  | .accept, _, fin => fin

/-- The working registers at the start of a computation. -/
def Engine.init : Engine := Engine.reset

/-- The operands latched at acceptance (10_state.md R48). -/
def State.latch (i : Instr) (s : State) : State :=
  { s with opL := i, stL := s.stReg, endL := s.endReg }

end Sys2Proof.Machine
end

