-- ==== Sys2Proof/Machine/Ops.lean ====
section
/-! DEFINITION. The named operations on registers and buffers: reading, writing, the draw of an
undefined read, dropping, accepting and rejecting a command, error entry, write-back and reset. -/

namespace Sys2Proof.Machine

/-- The defined value of a register of the window, `none` where a read draws
(20_memory.md R75; 10_state.md R34, R38 to R47). -/
def State.regValue (s : State) : Reg → Option Word
  | .cmd => some 0#32
  | .status => some s.statusWord
  | .st => some s.stReg
  | .fin => some s.endReg
  | .result => if s.busy then none else some s.resultWord
  | .countA => if s.busy then none else some (s.countA.setWidth 32)
  | .countB => if s.busy then none else some (s.countB.setWidth 32)
  | .caps => some s.capsWord
  | .aPatt n => if s.slotDefined s.countA n then some s.bufA[n].pattern else none
  | .aMask n => if s.slotDefined s.countA n then some s.bufA[n].mask else none
  | .bPatt n => if s.slotDefined s.countB n then some s.bufB[n].pattern else none
  | .bMask n => if s.slotDefined s.countB n then some s.bufB[n].mask else none

/-- `draw()`: a fresh free value (00_scope.md R12). The counter is the model's own, so that two
draws are not the same value. -/
def State.draw (s : State) : Word × State :=
  (Config.draw s.draws, { s with draws := s.draws + 1 })

/-- `BusRead` of a register: its value, or a draw (20_memory.md R75). -/
def State.readReg (r : Reg) (s : State) : Word × State :=
  match s.regValue r with
  | some v => (v, s)
  | none => s.draw

/-- Drop of a command word while BUSY (10_state.md R52). -/
def State.drop (s : State) : State := { s with ovr := true }

/-- Error entry, the block's one way of taking an error: STATE, ERR, RESULT and both counts; nothing
is saved and control does not move (60_exceptions.md R190). The raw slots and the hidden registers
stay (DESIGN CHOICE, log entries 25 and 26). -/
def State.errorEntry (c : ErrCode) (s : State) : State :=
  { s with cstate := .error, err := c, kind := .direct, countA := 0#6, countB := 0#6 }

/-- Acceptance of a legal command word (10_state.md R51): it latches the operands, makes the engine
run, and is the return from an earlier error (60_exceptions.md R192). -/
def State.accept (i : Instr) (s : State) : State :=
  { s.latch i with cstate := .busy, err := .none, engine := Engine.init, elapsed := 0 }

/-- A write of a legal command word: dropped while BUSY, else accepted (20_memory.md R76). -/
def State.request (i : Instr) (s : State) : State :=
  if s.busy then s.drop else s.accept i

/-- A write of an illegal command word: dropped while BUSY, else ILLEGAL_CMD (30_encoding.md R105,
60_exceptions.md R187). -/
def State.rejectCmd (s : State) : State :=
  if s.busy then s.drop else s.errorEntry .illegalCmd

/-- The first slots of a buffer overwritten by a list, the others kept. DESIGN CHOICE: the spec makes
the slots not written undefined (10_state.md R53); the model keeps their raw bits, and every read of
one draws (R47, log entry 25). -/
def overlay : List Entry → List Entry → List Entry
  | [], old => old
  | _ :: _, [] => []
  | e :: l, _ :: old => e :: overlay l old

/-- Writing a list over a buffer changes no slot count. -/
theorem overlay_length (l old : List Entry) : (overlay l old).length = old.length := by
  induction l generalizing old with
  | nil => rfl
  | cons e l ih => cases old with
    | nil => rfl
    | cons _ old => simp [overlay, ih]

/-- `X[n] <- L[n] for n < |L|` (10_state.md R53). -/
def fillBuffer (l : List Entry) (b : Vector Entry 32) : Vector Entry 32 :=
  ⟨(overlay l b.toList).toArray, by simp [overlay_length]⟩

/-- Completion's write-back of a result, one step (10_state.md R53). The raw bits of the slots not
written stay, those of a failure among them (DESIGN CHOICE, log entry 25). The latched operands and
the working registers stay too, where the spec has them valid while BUSY (R55; DESIGN CHOICE, log
entry 26). -/
def State.writeBack (s : State) : CmdResult → State
  | .direct l =>
    { s with cstate := .done, err := .none, kind := .direct, countA := BitVec.ofNat 6 l.length,
             bufA := fillBuffer l s.bufA, countB := 0#6 }
  | .split j k =>
    { s with cstate := .done, err := .none, kind := .split, countA := BitVec.ofNat 6 j.length,
             bufA := fillBuffer j s.bufA, countB := BitVec.ofNat 6 k.length,
             bufB := fillBuffer k s.bufB }
  | .fail c => s.errorEntry c.err

/-- The effect of a write to a register other than CMD (20_memory.md R76): ST and END store, STATUS
may clear OVR, the read-only registers ignore it. CMD is `State.writeReg`'s. -/
def State.storeReg (r : Reg) (v : Word) (s : State) : State :=
  match r with
  | .status => { s with ovr := ovrAfterStatusWrite s.ovr v }
  | .st => { s with stReg := v }
  | .fin => { s with endReg := v }
  | .cmd | .result | .countA | .countB | .caps => s
  | .aPatt _ | .aMask _ | .bPatt _ | .bMask _ => s

/-- The reset event (70_reset_and_hazards.md R210 to R212): the block's state is that of R211. The
parameters are the hardware's, and the host, the turns to come and the draw counter are not the
block's (log entry 18). -/
def State.applyReset (s : State) : State :=
  { State.reset with params := s.params, draws := s.draws, host := s.host, schedule := s.schedule }

end Sys2Proof.Machine
end

