-- ==== Sys2Proof/Machine/Convert.lean ====
section
/-! DEFINITION. CONVERT: the function of 40_convert.md R121 and the command's meaning (R120). -/

namespace Sys2Proof.Machine

/-- The outer loop, lines 3 to 17 of 40_convert.md R121. `room` is `CAPACITY - |L|`, so line 13's
test `|L| = CAPACITY` is `room = 0`; the loops of lines 4 to 12 have no effect but their entry. -/
def outerLoop (st : Word) : (room : Nat) → (patt : Word) → (l : List Entry) → ConvertResult
  | 0, patt, l => if patt < st then .ok l else .fail .capacityExceeded
  | room + 1, patt, l =>
    if patt < st then .ok l
    else
      if (Work.iteration st patt).patt = 0#32 then .ok (l ++ [(Work.iteration st patt).entry])
      else outerLoop st room ((Work.iteration st patt).patt - 1#32)
        (l ++ [(Work.iteration st patt).entry])

/-- `convert(st, end)` (40_convert.md R121): the wraparound guard, then the outer loop. -/
def convert (st fin : Word) : ConvertResult :=
  if fin = maxWord ∧ st ≠ 0#32 then .fail .rangeTooLarge
  else outerLoop st Config.capacity fin []

/-- The result of CONVERT (40_convert.md R120). -/
def convertCmd (st fin : Word) : CmdResult :=
  match convert st fin with
  | .ok l => .direct l
  | .fail c => .fail c

/-- CONVERT's word written to CMD: dropped while BUSY, else accepted (40_convert.md R120,
10_state.md R51, R52). Its result comes with the engine's completion, `State.complete`. -/
def execConvert (s : State) : Host.Outcome State Fault Refusal :=
  .next (s.request .convert)

end Sys2Proof.Machine
end

