-- ==== Sys2Proof/Machine/Select.lean ====
section
/-! DEFINITION. SELECT: the function of 41_select.md R161 and the command's meaning (R160). -/

namespace Sys2Proof.Machine

/-- Lines 6 and 7 of 41_select.md R161: the strict comparison of counts, exact (R165, R171). -/
def chooseRules (direct reject accept : List Entry) : CmdResult :=
  if reject.length + accept.length < direct.length then .split reject accept else .direct direct

/-- `select(start, end)` (41_select.md R161). Lines 4 and 5 always succeed (R168); were they to
fail, the failure would be the result, which no run shows (log entry 17). -/
def selectCmd (st fin : Word) : CmdResult :=
  match convert st fin with
  | .fail c => .fail c
  | .ok d =>
    if st = 0#32 then .direct d
    else
      match convert 0#32 (st - 1#32) with
      | .fail c => .fail c
      | .ok r =>
        match convert 0#32 fin with
        | .fail c => .fail c
        | .ok a => chooseRules d r a

/-- SELECT's word written to CMD: dropped while BUSY; else accepted when HAS_SELECT, and ILLEGAL_CMD
when not (41_select.md R160, 30_encoding.md R105, 10_state.md R51, R52). -/
def execSelect (s : State) : Host.Outcome State Fault Refusal :=
  .next (if s.params.hasSelect then s.request .select else s.rejectCmd)

end Sys2Proof.Machine
end

