-- ==== Sys2Proof/Machine/Engine.lean ====
section
/-! DEFINITION. The engine: its working registers line by line (10_state.md R49), and the
completion step (R53). -/

namespace Sys2Proof.Machine

/-- `n` of 10_state.md R49: the entries appended so far, 6 bits. -/
def Engine.count (e : Engine) : BitVec 6 := BitVec.ofNat 6 e.list.length

/-- A `convert` of the computation has ended with `ok`: CONVERT's result, or the next line of
`select` (41_select.md R161). -/
def Engine.passOk (op : Instr) (st : Word) (e : Engine) : Engine :=
  match op, e.pass with
  | .convert, _ => { e with pos := .finished (.direct e.list) }
  | .select, .direct =>
    if st = 0#32 then { e with direct := e.list, pos := .finished (.direct e.list) }
    else { e with direct := e.list, pass := .reject, pos := .start }
  | .select, .reject => { e with reject := e.list, pass := .accept, pos := .start }
  | .select, .accept => { e with accept := e.list, pos := .compare }

/-- Lines 13 to 16 of 40_convert.md R121. -/
def Engine.appendEntry (op : Instr) (st : Word) (e : Engine) : Engine :=
  if e.list.length = Config.capacity then { e with pos := .finished (.fail .capacityExceeded) }
  else if e.work.patt = 0#32 then
    Engine.passOk op st { e with list := e.list ++ [e.work.entry] }
  else
    { e with
      list := e.list ++ [e.work.entry]
      work := { e.work with patt := e.work.patt - 1#32 }
      pos := .outer }

/-- One micro-step of the computation on the latched operands: the lines of 40_convert.md R121 and
41_select.md R161, one test with its round at a time. None of it is host-visible (10_state.md R49,
93 U10). -/
def Engine.tick (op : Instr) (st fin : Word) (e : Engine) : Engine :=
  match e.pos with
  | .start =>
    if e.pass.hi st fin = maxWord ∧ e.pass.lo st ≠ 0#32 then
      { e with pos := .finished (.fail .rangeTooLarge) }
    else { e with list := [], work := { e.work with patt := e.pass.hi st fin }, pos := .outer }
  | .outer =>
    if e.work.patt < e.pass.lo st then Engine.passOk op st e
    else { e with work := Work.atCursor e.work.patt, pos := .strip }
  | .strip =>
    if e.work.canStrip then { e with work := e.work.stripRound } else { e with pos := .retract }
  | .retract =>
    if e.work.patt < e.pass.lo st then { e with work := e.work.retractRound }
    else { e with pos := .append }
  | .append => Engine.appendEntry op st e
  | .compare => { e with pos := .finished (chooseRules e.direct e.reject e.accept) }
  | .finished _ => e

/-- The result of a command on its latched operands (10_state.md R53): 40_convert.md R121 for
`op_l = 1`, 41_select.md R161 for `op_l = 2`. -/
def computeResult : Instr → Word → Word → CmdResult
  | .convert, st, fin => convertCmd st fin
  | .select, st, fin => selectCmd st fin

/-- The completion step: the result of the latched command, written back in one step
(10_state.md R53). -/
def State.complete (s : State) : State :=
  s.writeBack (computeResult s.opL s.stL s.endL)

/-- The engine's turn to complete: enabled throughout BUSY, and nothing when there is no command
(10_state.md R53, 60_exceptions.md R201). -/
def State.completionTurn (s : State) : State :=
  if s.busy then s.complete else s

/-- An engine cycle: a micro-step, and completion in the last cycle that `LAT_MAX` allows
(70_reset_and_hazards.md R222). The engine is idle when not BUSY (60_exceptions.md R201). -/
def State.cycleTurn (s : State) : State :=
  if s.busy then
    if s.elapsed + 1 < s.params.latMax then
      { s with engine := s.engine.tick s.opL s.stL s.endL, elapsed := s.elapsed + 1 }
    else s.complete
  else s

end Sys2Proof.Machine
end

