-- ==== Sys2Proof/Machine/Dispatch.lean ====
section
/-! DEFINITION. One arm per instruction. -/

namespace Sys2Proof.Machine

def exec (i : Instr) (s : State) : Host.Outcome State Fault Refusal :=
  match i with
  | .convert => Sys2Proof.Machine.execConvert s
  | .select => Sys2Proof.Machine.execSelect s

end Sys2Proof.Machine
end

