-- ==== Sys2Proof/Machine/Bus.lean ====
section
/-! DEFINITION. Bus accesses: legality, the register decode, reads and writes, and the address
decode (20_memory.md R70 to R77, 30_encoding.md R101). -/

namespace Sys2Proof.Machine

/-- The register a transaction addresses; `none` is BusError: not 4 bytes wide, not aligned, or a
reserved offset (20_memory.md R73, R77). -/
def Txn.reg (t : Txn) : Option Reg :=
  if t.size = 4 then decodeOffset t.off else none

/-- A write of a word to CMD (20_memory.md R76, 30_encoding.md R106): the decoded command's meaning,
or an illegal word. Each of the two tests BUSY first. -/
def State.writeCmd (v : Word) (s : State) : Host.Outcome State Fault Refusal :=
  match decode (toLanes v) with
  | .ok i => exec i s
  | .error _ => .next s.rejectCmd

/-- `BusWrite` of a register (20_memory.md R76). -/
def State.writeReg (r : Reg) (v : Word) (s : State) : Host.Outcome State Fault Refusal :=
  match r with
  | .cmd => s.writeCmd v
  | r => .next (s.storeReg r v)

/-- One bus access, with the block's answer in `response`. A BusError has no other effect
(60_exceptions.md R184). -/
def State.busAccess (t : Txn) (s : State) : Host.Outcome State Fault Refusal :=
  match Txn.reg t with
  | none => .next { s with response := some .busError }
  | some r =>
    match t.dir with
    | .read => .next { (s.readReg r).2 with response := some (.data (s.readReg r).1) }
    | .write => State.writeReg r t.data { s with response := some .written }

/-- The transaction an absolute access is, where its address is in the window (20_memory.md R71);
byte lane j carries bits 8j+7 to 8j (R72). -/
def Access.toTxn (p : Params) (a : Access) : Option Txn :=
  if p.base ≤ a.addr ∧ a.addr < p.base + 0x400 then
    some ⟨a.dir, BitVec.ofNat 10 (a.addr - p.base), a.size, ofLanes a.lanes⟩
  else none

/-- An access by absolute address: the block's where it is in the window, the platform's elsewhere
(20_memory.md R71, R79). -/
def State.addrAccess (a : Access) (s : State) : Host.Outcome State Fault Refusal :=
  match Access.toTxn s.params a with
  | some t => s.busAccess t
  | none => .refused .outsideWindow

end Sys2Proof.Machine
end

