-- ==== Sys2Proof/Machine/HostLines.lean ====
section
/-! DEFINITION. The host agent: its lines, its variables and the pseudo-lines
(30_encoding.md R108, R109). -/

namespace Sys2Proof.Machine

/-- The value of a host variable; a free value where no line has written it (log entry 15). -/
def readVar (v : Nat) : List (Nat × Word) → Word
  | [] => Config.hostVar v
  | (k, x) :: vs => if k = v then x else readVar v vs

/-- Writing a host variable, in the list's rising order. -/
def writeVar (v : Nat) (x : Word) : List (Nat × Word) → List (Nat × Word)
  | [] => [(v, x)]
  | (k, y) :: vs =>
    if v < k then (v, x) :: (k, y) :: vs
    else if v = k then (v, x) :: vs
    else (k, y) :: writeVar v x vs

/-- The line number a label is declared at. -/
def findLabel (l : Nat) : List HostLine → Option Nat
  | [] => none
  | .label k :: p => if k = l then some 0 else (findLabel l p).map (· + 1)
  | _ :: p => (findLabel l p).map (· + 1)

/-- The host goes on with the next line. -/
def State.hostNext (s : State) : State := { s with host := { s.host with pc := s.host.pc + 1 } }

/-- The host writes a variable and goes on. -/
def State.hostSet (v : Nat) (x : Word) (s : State) : State :=
  { s with host := { s.host with vars := writeVar v x s.host.vars, pc := s.host.pc + 1 } }

/-- The host goes to a label. -/
def State.hostGoto (l : Nat) (s : State) : Host.Outcome State Fault Refusal :=
  match findLabel l s.host.prog with
  | some k => .next { s with host := { s.host with pc := k } }
  | none => .refused .undeclaredLabel

/-- The host's side of an access it has made: it stores read data in `dst`, goes on after a write,
and faults on a BusError (60_exceptions.md R184, 93 U8). -/
def State.hostAnswer (dst : Option Nat) (s : State) : Host.Outcome State Fault Refusal :=
  match s.response, dst with
  | some (.data x), some v => .next (s.hostSet v x)
  | some .busError, _ => .fault .busError
  | _, _ => .next s.hostNext

/-- The host makes an access of 4 bytes (30_encoding.md R108). -/
def State.hostAccess (t : Txn) (dst : Option Nat) (s : State) :
    Host.Outcome State Fault Refusal :=
  match s.busAccess t with
  | .next s' => s'.hostAnswer dst
  | .fault f => .fault f
  | .refused r => .refused r

/-- The meaning of a host line (30_encoding.md R108). -/
def State.hostLine (x : HostLine) (s : State) : Host.Outcome State Fault Refusal :=
  match x with
  | .wr r imm => s.hostAccess ⟨.write, r.offset, 4, imm⟩ none
  | .rd r v => s.hostAccess ⟨.read, r.offset, 4, 0#32⟩ (some v)
  | .wrRaw off imm => s.hostAccess ⟨.write, off, 4, imm⟩ none
  | .rdRaw off v => s.hostAccess ⟨.read, off, 4, 0#32⟩ (some v)
  | .label _ => .next s.hostNext
  | .beq v imm l => if readVar v s.host.vars = imm then s.hostGoto l else .next s.hostNext
  | .bne v imm l => if readVar v s.host.vars ≠ imm then s.hostGoto l else .next s.hostNext
  | .and d m imm => .next (s.hostSet d (readVar m s.host.vars &&& imm))

/-- The host's turn: its next line, or nothing once its run has ended
(70_reset_and_hazards.md R225). -/
def State.hostTurn (s : State) : Host.Outcome State Fault Refusal :=
  match s.host.prog[s.host.pc]? with
  | some x => s.hostLine x
  | none => .next s

/-- `poll -> vN`, with a label and a variable of its own (30_encoding.md R109). -/
def pollLines (l v tmp : Nat) : List HostLine :=
  [.label l, .rd .status v, .and tmp v 3#32, .beq tmp 1#32 l]

/-- `convert st, end` (30_encoding.md R109). -/
def convertLines (st fin : Word) (l v tmp : Nat) : List HostLine :=
  [.wr .st st, .wr .fin fin, .wr .cmd 0x00000001#32] ++ pollLines l v tmp

/-- `select st, end` (30_encoding.md R109). -/
def selectLines (st fin : Word) (l v tmp : Nat) : List HostLine :=
  [.wr .st st, .wr .fin fin, .wr .cmd 0x00000002#32] ++ pollLines l v tmp

/-- `clrovr` (30_encoding.md R109, R107). -/
def clrovrLines : List HostLine := [.wr .status 0x00000100#32]

end Sys2Proof.Machine
end

