-- ==== Sys2Proof/Machine/Turns.lean ====
section
/-! DEFINITION. What each turn does (20_memory.md R81, 70_reset_and_hazards.md R210 to R222), and
placing a transaction where the next step takes it. -/

namespace Sys2Proof.Machine

/-- One turn of the total order. -/
def State.runTurn (t : Turn) (s : State) : Host.Outcome State Fault Refusal :=
  match t with
  | .host => s.hostTurn
  | .bus t => s.busAccess t
  | .access a => s.addrAccess a
  | .cycle => .next s.cycleTurn
  | .complete => .next s.completionTurn
  | .reset => .next s.applyReset
  | .resetDuring _ => .fault .accessDuringReset

/-- The turn taken when none is scheduled: the engine's completion while BUSY, which every weakly
fair run takes (70_reset_and_hazards.md R222), else the host's (log entry 5). -/
def State.defaultTurn (s : State) : Turn := if s.busy then .complete else .host

/-- The transaction that writes the command word `w` (30_encoding.md R100). -/
def cmdWrite (w : Word) : Txn := ⟨.write, Reg.cmd.offset, 4, w⟩

/-- A transaction put before every scheduled turn. -/
def State.withBusTurn (s : State) (t : Txn) : State :=
  { s with schedule := .bus t :: s.schedule }

end Sys2Proof.Machine
end

