-- ==== Sys2Proof/Machine/Step.lean ====
section
/-! DEFINITION. One step: the next turn of the total order (20_memory.md R81). -/

namespace Sys2Proof.Machine

/-- One step: the first scheduled turn, or the default one. -/
def step (s : State) : Host.Outcome State Fault Refusal :=
  match s.schedule with
  | [] => s.runTurn s.defaultTurn
  | t :: rest => State.runTurn t { s with schedule := rest }

/-- `s` with a write of the command word `w` (its low `nbits` bits, the others 0) as the very next
turn: the block fetches nothing, a command comes to it on the bus (10_state.md R32, log entry 16). -/
def State.withFetchWord (s : State) (nbits w : Nat) : State :=
  s.withBusTurn (cmdWrite (BitVec.ofNat 32 (w % 2 ^ nbits)))

end Sys2Proof.Machine
end

