-- ==== Sys2Proof/Machine/Entries.lean ====
section
/-! DEFINITION. What entries and entry lists mean (00_scope.md R13 to R20), and the host-side
rendering of a mask (60_exceptions.md R186). -/

namespace Sys2Proof.Machine

/-- Address `a` matches an entry: equal on every care bit (00_scope.md R17). -/
def Entry.covers (e : Entry) (a : Word) : Bool := a &&& e.mask == e.pattern

/-- The bottom address of the block an entry denotes (00_scope.md R16). -/
def Entry.bottom (e : Entry) : Word := e.pattern

/-- The top address of the block an entry denotes: `p OR NOT m` (00_scope.md R16). -/
def Entry.top (e : Entry) : Word := e.pattern ||| ~~~e.mask

/-- Some entry of a RuleSet matches the address. -/
def matchesSome (l : List Entry) (a : Word) : Bool := l.any fun e => e.covers a

/-- The trailing 0 bits of a word below position `k`, counted from bit 0. -/
def trailingZeros (m : Word) : (k : Nat) → Nat
  | 0 => 0
  | k + 1 => if m.getLsbD (31 - k) then 0 else trailingZeros m k + 1

/-- The wildcard count of a mask: its trailing 0 bits, `m = 0` counted as 32 (00_scope.md R14). -/
def wildcardCount (m : Word) : Nat := trailingZeros m 32

/-- A well-formed entry: the mask is `ONES(k)` and the wildcard bits of the pattern are 0
(00_scope.md R14, R15). -/
def Entry.wf (e : Entry) : Bool :=
  e.mask == ones (wildcardCount e.mask) && e.pattern &&& ~~~e.mask == 0#32

/-- Host side: the prefix length of a mask, `32 - k` for `ONES(k)`; `none` is `NotAPrefix`
(60_exceptions.md R186, 00_scope.md R20). -/
def prefixLength (m : Word) : Option Nat :=
  if m = ones (wildcardCount m) then some (32 - wildcardCount m) else none

/-- Host side: what a matching engine accepts that installs `reject` as a deny rule of higher
priority than `accept` (41_select.md R169). -/
def splitAccepts (reject accept : List Entry) (a : Word) : Bool :=
  !matchesSome reject a && matchesSome accept a

end Sys2Proof.Machine
end

