-- ==== Sys2Proof/Safety.lean ====
section
/-! DEFINITION. What the claims speak of: the access a turn makes, a result held in the registers,
the machine's invariant, and a run that does not stop. -/

namespace Sys2Proof.Machine

/-- The turn the next step takes. -/
def State.nextTurn (s : State) : Turn :=
  match s.schedule with
  | [] => s.defaultTurn
  | t :: _ => t

/-- The transaction a host line makes (30_encoding.md R108). -/
def hostLineTxn : HostLine → Option Txn
  | .wr r imm => some ⟨.write, r.offset, 4, imm⟩
  | .rd r _ => some ⟨.read, r.offset, 4, 0#32⟩
  | .wrRaw off imm => some ⟨.write, off, 4, imm⟩
  | .rdRaw off _ => some ⟨.read, off, 4, 0#32⟩
  | .label _ | .beq .. | .bne .. | .and .. => none

/-- The transaction a turn brings to the block. -/
def State.turnTxn (s : State) : Turn → Option Txn
  | .host => s.host.prog[s.host.pc]?.bind hostLineTxn
  | .bus t => some t
  | .access a => Access.toTxn s.params a
  | .cycle | .complete | .reset | .resetDuring _ => none

/-- The register write that the next step makes, with its data. -/
def State.nextWrite (s : State) : Option (Reg × Word) :=
  match s.turnTxn s.nextTurn with
  | some t => if t.dir = .write then (Txn.reg t).map fun r => (r, t.data) else none
  | none => none

/-- The first entries of a buffer are those of a list. -/
def bufferHolds (b : Vector Entry 32) (l : List Entry) : Prop :=
  ∀ (n : Nat) (h : n < 32) (hl : n < l.length), b[n] = l[n]

/-- The result registers and buffers hold a command's result as completion writes it
(10_state.md R53). -/
def State.holdsResult (s : State) : CmdResult → Prop
  | .direct l => s.cstate = .done ∧ s.err = .none ∧ s.kind = .direct ∧ l.length ≤ 32 ∧
      s.countA.toNat = l.length ∧ s.countB = 0#6 ∧ bufferHolds s.bufA l
  | .split j k => s.cstate = .done ∧ s.err = .none ∧ s.kind = .split ∧ j.length ≤ 32 ∧
      k.length ≤ 32 ∧ s.countA.toNat = j.length ∧ s.countB.toNat = k.length ∧
      bufferHolds s.bufA j ∧ bufferHolds s.bufB k
  | .fail c => s.cstate = .error ∧ s.err = c.err ∧ s.kind = .direct ∧ s.countA = 0#6 ∧
      s.countB = 0#6

/-- The engine is somewhere on the way of its computation on the latched operands
(10_state.md R49). -/
def State.engineOnPath (s : State) : Prop :=
  ∃ k, s.engine = (Engine.tick s.opL s.stL s.endL)^[k] Engine.init

/-- Host variables are listed once each, in rising order. -/
def varsSorted : List (Nat × Word) → Prop
  | [] => True
  | [_] => True
  | a :: b :: l => a.1 < b.1 ∧ varsSorted (b :: l)

/-- The machine's invariant. -/
structure State.Inv (s : State) : Prop where
  /-- ERR is nonzero exactly in ERROR (10_state.md R36). -/
  errIff : s.err ≠ .none ↔ s.cstate = .error
  /-- Counts are 0 to CAPACITY (10_state.md R42, R43). -/
  counts : s.countA.toNat ≤ Config.capacity ∧ s.countB.toNat ≤ Config.capacity
  /-- No result after reset or an error (70 R211, 60_exceptions.md R190). -/
  noResult : s.cstate = .idle ∨ s.cstate = .error →
    s.kind = .direct ∧ s.countA = 0#6 ∧ s.countB = 0#6
  /-- A running or completed SELECT means the hardware has it (30_encoding.md R104). -/
  present : s.cstate = .busy ∨ s.cstate = .done → s.opL.wf s.params = true
  /-- A command in flight is within its latency bound (70_reset_and_hazards.md R222; the count of cycles is the
  model's, log entry 3). -/
  latency : s.cstate = .busy → s.elapsed < s.params.latMax
  /-- A command in flight is being computed (10_state.md R49; micro-steps and start, log entries 8
  and 10). -/
  onPath : s.cstate = .busy → s.engineOnPath
  /-- DONE: the registers hold the result of the command that completed (10_state.md R53), whose
  latched operands stay (log entry 26). -/
  doneResult : s.cstate = .done → s.holdsResult (computeResult s.opL s.stL s.endL)
  /-- ERROR with a code of the computation: that command's failure (10_state.md R53; log
  entry 26). -/
  errorResult : s.cstate = .error → s.err ≠ .illegalCmd →
    s.holdsResult (computeResult s.opL s.stL s.endL)
  /-- Host variables stay in canonical form (log entry 15). -/
  vars : varsSorted s.host.vars

/-- `n` steps from `s` neither fault nor refuse. -/
def SafeRun (n : Nat) (s : State) : Prop :=
  ∃ t, Host.Core.run Sys2Proof.core n s = .next t

end Sys2Proof.Machine
end

