-- ==== Sys2Proof/Certificates/Slice0/Obligations.lean ====
section
/-! DEFINITION. The statements for the provers, from the numbered rules of spec/. -/

section

open Sys2Proof Sys2Proof.Machine

/-! ### Encoding -/

/-- 30_encoding.md R103, R104: the encoder's bytes of each command decode to it, and its word is the
table's. -/
def Obligations.DecodeOfEncode : Prop :=
  encode .convert = 0x00000001#32 ∧ encode .select = 0x00000002#32 ∧
    ∀ i : Instr, decode (encodeBytes i) = .ok i ∧ decodeWord (encode i) = .ok i

/-- 30_encoding.md R103 to R105: over all byte strings, the encoder's bytes of a command are the only
ones that decode to it, so no illegal word decodes to a command. -/
def Obligations.OnlyTheEncodingDecodes : Prop :=
  ∀ (bs : List Byte) (i : Instr), decode bs = .ok i ↔ bs = encodeBytes i

/-- Words of 95_test_vectors.md V7.1 to V7.9, written out from 30_encoding.md R102, and what they
decode to. -/
def Obligations.CommandWordsDecode : Prop :=
  decodeWord 0x00000001#32 = .ok .convert ∧ decodeWord 0x00000002#32 = .ok .select ∧
    decodeWord 0x00000000#32 = .error .opIllegal ∧ decodeWord 0x00000003#32 = .error .opIllegal ∧
    decodeWord 0x0000000F#32 = .error .opIllegal ∧ decodeWord 0x00000011#32 = .error .rsvdNonzero ∧
    decodeWord 0x80000001#32 = .error .rsvdNonzero ∧
    decodeWord 0xFFFFFFFF#32 = .error .rsvdNonzero

/-- 30_encoding.md R103 to R106: the decoder on every 32-bit word, by its OP and RSVD fields. -/
def Obligations.DecoderIsExactMatch : Prop :=
  ∀ w : Word, (decodeWord w = .ok .convert ↔ w = 0x00000001#32) ∧
    (decodeWord w = .ok .select ↔ w = 0x00000002#32) ∧
    (decodeWord w = .error .rsvdNonzero ↔ w.toNat / 16 ≠ 0) ∧
    (decodeWord w = .error .opIllegal ↔ w.toNat / 16 = 0 ∧ w.toNat ≠ 1 ∧ w.toNat ≠ 2) ∧
    decodeWord w ≠ .error .wrongLength

/-- 10_state.md R33: the offset map, read and written, over all 1024 offsets and all registers; and
the legal transactions of 30_encoding.md R101 are those that address a register. -/
def Obligations.OffsetMapAgrees : Prop :=
  (∀ (off : BitVec 10) (r : Reg), decodeOffset off = some r ↔ off = r.offset) ∧
    ∀ t : Txn, t.wf = true ↔ ∃ r : Reg, Txn.reg t = some r ∧ t.off = r.offset ∧ t.size = 4

/-- 20_memory.md R72: byte lane `j` carries register bits 8j+7 to 8j, and the lanes make up the word
again. -/
def Obligations.ByteLanesAreLittleEndian : Prop :=
  ∀ w : Word, ofLanes (toLanes w) = w ∧ (toLanes w).length = 4 ∧
    ∀ j b : Nat, b < 8 → ∀ h : j < (toLanes w).length,
      (toLanes w)[j].getLsbD b = w.getLsbD (8 * j + b)

/-! ### Bus accesses -/

/-- 20_memory.md R73, R77: an access that is not 4 bytes wide, not aligned or in a reserved range is
answered with BusError and changes nothing (`response` is the answer itself, log entry 14); every
other access succeeds. -/
def Obligations.IllegalAccessIsBusErrorWithoutEffect : Prop :=
  ∀ (t : Txn) (s : State),
    (t.size ≠ 4 ∨ t.off.toNat % 4 ≠ 0 ∨ (0x020 ≤ t.off.toNat ∧ t.off.toNat ≤ 0x0FF) ∨
        0x300 ≤ t.off.toNat →
      s.busAccess t = .next { s with response := some .busError }) ∧
    (t.size = 4 ∧ t.off.toNat % 4 = 0 ∧
        ¬ ((0x020 ≤ t.off.toNat ∧ t.off.toNat ≤ 0x0FF) ∨ 0x300 ≤ t.off.toNat) →
      ∃ u, s.busAccess t = .next u ∧ u.response ≠ some .busError)

/-- 20_memory.md R71, R72: an access by absolute address inside the window is the transaction at
its offset, for every base. -/
def Obligations.AccessInWindowIsItsTransaction : Prop :=
  ∀ (s : State) (d : Dir) (off : BitVec 10) (size : Nat) (v : Word),
    s.addrAccess ⟨d, s.params.base + off.toNat, size, toLanes v⟩ = s.busAccess ⟨d, off, size, v⟩ ∧
      s.params.base % 0x400 = 0

/-- 20_memory.md R71: an address outside the window is not the block's. That the model then refuses
is the model's choice (log entry 2). -/
def Obligations.AccessOutsideWindowIsRefused : Prop :=
  ∀ (s : State) (a : Access), a.addr < s.params.base ∨ s.params.base + 0x3FF < a.addr →
    s.addrAccess a = .refused .outsideWindow

/-- 10_state.md R38: a read of STATUS returns its fields with reserved bits 0 and has no side effect:
STATE in bits 1 to 0 with the values of R35, ERR in bits 7 to 4 with the codes of R36. A write to
STATUS changes nothing but OVR, which bit 8 clears. `response` is the block's answer on the bus (log
entry 14). -/
def Obligations.StatusReadAndWrite : Prop :=
  ∀ (s : State) (d v : Word), ∃ w : Word,
    s.busAccess ⟨.read, 0x004#10, 4, d⟩ = .next { s with response := some (.data w) } ∧
    (s.cstate = .idle → w.extractLsb' 0 2 = 0#2) ∧ (s.cstate = .busy → w.extractLsb' 0 2 = 1#2) ∧
    (s.cstate = .done → w.extractLsb' 0 2 = 2#2) ∧ (s.cstate = .error → w.extractLsb' 0 2 = 3#2) ∧
    w.extractLsb' 2 2 = 0#2 ∧
    (s.err = .none → w.extractLsb' 4 4 = 0#4) ∧ (s.err = .rangeTooLarge → w.extractLsb' 4 4 = 1#4) ∧
    (s.err = .capacityExceeded → w.extractLsb' 4 4 = 2#4) ∧
    (s.err = .illegalCmd → w.extractLsb' 4 4 = 3#4) ∧ w.getLsbD 8 = s.ovr ∧ w.extractLsb' 9 23 = 0#23 ∧
    s.busAccess ⟨.write, 0x004#10, 4, v⟩ =
      .next { s with response := some .written, ovr := s.ovr && !v.getLsbD 8 }

/-- 10_state.md R44: CAPS reads 0x120 when HAS_SELECT, else 0x20, in every state, and writes to it
are ignored. -/
def Obligations.CapsIsConstant : Prop :=
  ∀ (s : State) (d : Word),
    s.busAccess ⟨.read, 0x01C#10, 4, d⟩ = .next { s with
      response := some (.data (if s.params.hasSelect then 0x00000120#32 else 0x00000020#32)) } ∧
    s.busAccess ⟨.write, 0x01C#10, 4, d⟩ = .next { s with response := some .written }

/-- 10_state.md R39, R40: ST and END store any 32-bit value at once, in any state, and read back
the last value written. -/
def Obligations.OperandRegistersStoreAndReadBack : Prop :=
  ∀ (s : State) (d v : Word),
    s.busAccess ⟨.write, 0x008#10, 4, v⟩ = .next { s with response := some .written, stReg := v } ∧
    s.busAccess ⟨.write, 0x00C#10, 4, v⟩ = .next { s with response := some .written, endReg := v } ∧
    s.busAccess ⟨.read, 0x008#10, 4, d⟩ = .next { s with response := some (.data s.stReg) } ∧
    s.busAccess ⟨.read, 0x00C#10, 4, d⟩ = .next { s with response := some (.data s.endReg) }

/-- 20_memory.md R75, 10_state.md R41 to R43: RESULT and the counts read zero-extended outside BUSY;
while BUSY the read is a draw, which moves on only the model's own draw counter (log entry 6); CMD
reads 0. -/
def Obligations.ResultRegistersReadOrDraw : Prop :=
  ∀ (s : State) (d : Word),
    s.busAccess ⟨.read, 0x000#10, 4, d⟩ = .next { s with response := some (.data 0#32) } ∧
    (s.cstate ≠ .busy →
      s.busAccess ⟨.read, 0x010#10, 4, d⟩ = .next { s with
        response := some (.data (if s.kind = .split then 1#32 else 0#32)) } ∧
      s.busAccess ⟨.read, 0x014#10, 4, d⟩ = .next { s with
        response := some (.data (BitVec.ofNat 32 s.countA.toNat)) } ∧
      s.busAccess ⟨.read, 0x018#10, 4, d⟩ = .next { s with
        response := some (.data (BitVec.ofNat 32 s.countB.toNat)) }) ∧
    (s.cstate = .busy → ∀ off ∈ [0x010#10, 0x014#10, 0x018#10],
      s.busAccess ⟨.read, off, 4, d⟩ = .next { s with
        response := some (.data (Config.draw s.draws)), draws := s.draws + 1 })

/-- 20_memory.md R75, 10_state.md R47: a slot of buffer A or B reads its entry when the state is
DONE and the count is greater than its index, and draws otherwise (log entry 6). -/
def Obligations.SlotsReadOrDraw : Prop :=
  ∀ (s : State) (n : Fin 32) (d : Word),
    (s.cstate = .done ∧ n.val < s.countA.toNat →
      s.busAccess ⟨.read, BitVec.ofNat 10 (0x100 + 8 * n.val), 4, d⟩ =
        .next { s with response := some (.data s.bufA[n].pattern) } ∧
      s.busAccess ⟨.read, BitVec.ofNat 10 (0x104 + 8 * n.val), 4, d⟩ =
        .next { s with response := some (.data s.bufA[n].mask) }) ∧
    (¬ (s.cstate = .done ∧ n.val < s.countA.toNat) →
      ∀ off ∈ [BitVec.ofNat 10 (0x100 + 8 * n.val), BitVec.ofNat 10 (0x104 + 8 * n.val)],
      s.busAccess ⟨.read, off, 4, d⟩ = .next { s with
        response := some (.data (Config.draw s.draws)), draws := s.draws + 1 }) ∧
    (s.cstate = .done ∧ n.val < s.countB.toNat →
      s.busAccess ⟨.read, BitVec.ofNat 10 (0x200 + 8 * n.val), 4, d⟩ =
        .next { s with response := some (.data s.bufB[n].pattern) } ∧
      s.busAccess ⟨.read, BitVec.ofNat 10 (0x204 + 8 * n.val), 4, d⟩ =
        .next { s with response := some (.data s.bufB[n].mask) }) ∧
    (¬ (s.cstate = .done ∧ n.val < s.countB.toNat) →
      ∀ off ∈ [BitVec.ofNat 10 (0x200 + 8 * n.val), BitVec.ofNat 10 (0x204 + 8 * n.val)],
      s.busAccess ⟨.read, off, 4, d⟩ = .next { s with
        response := some (.data (Config.draw s.draws)), draws := s.draws + 1 })

/-- 20_memory.md R76: a write to a read-only register (0x010 to 0x01C, 0x100 to 0x2FC) is a
successful access without effect. -/
def Obligations.ReadOnlyRegistersIgnoreWrites : Prop :=
  ∀ (s : State) (off : BitVec 10) (v : Word), off.toNat % 4 = 0 →
    (0x010 ≤ off.toNat ∧ off.toNat ≤ 0x01C) ∨ (0x100 ≤ off.toNat ∧ off.toNat ≤ 0x2FC) →
    s.busAccess ⟨.write, off, 4, v⟩ = .next { s with response := some .written }

/-! ### Acceptance, drop and error entry -/

/-- 10_state.md R51: a write of any word to CMD when not BUSY. A legal word latches the operands and
sets BUSY, after which RESULT, the counts and every slot draw; every other word sets ERROR with
code 3, clears RESULT and the counts, leaves every slot undefined and never makes the engine run.
OVR is unchanged. `response` is the block's answer (log entry 14). After a legal word the working
registers and the model's count of engine cycles are left open. That the raw bits of the slots stay
(log entry 25), and the hidden registers after an illegal word (log entry 26), is the model's
choice. -/
def Obligations.CommandWriteWhenNotBusy : Prop :=
  ∀ (s : State) (v : Word), s.cstate ≠ .busy →
    ((v = 0x00000001#32 ∨ (v = 0x00000002#32 ∧ s.params.hasSelect = true)) →
      ∃ u, s.busAccess ⟨.write, 0x000#10, 4, v⟩ = .next u ∧
        u = { s with
          response := some .written
          opL := if v = 0x00000001#32 then .convert else .select
          stL := s.stReg, endL := s.endReg
          cstate := .busy, err := .none, engine := u.engine, elapsed := u.elapsed } ∧
        u.opL.op = v.extractLsb' 0 4 ∧
        (∀ r ∈ [Reg.result, Reg.countA, Reg.countB], u.regValue r = none) ∧
        (∀ n : Fin 32, u.regValue (.aPatt n) = none ∧ u.regValue (.aMask n) = none ∧
          u.regValue (.bPatt n) = none ∧ u.regValue (.bMask n) = none)) ∧
    (¬ (v = 0x00000001#32 ∨ (v = 0x00000002#32 ∧ s.params.hasSelect = true)) →
      ∃ u, s.busAccess ⟨.write, 0x000#10, 4, v⟩ = .next u ∧
        u = { s with
          response := some .written
          cstate := .error, err := .illegalCmd, kind := .direct, countA := 0#6, countB := 0#6 } ∧
        u.running = false ∧
        (∀ n : Fin 32, u.regValue (.aPatt n) = none ∧ u.regValue (.aMask n) = none ∧
          u.regValue (.bPatt n) = none ∧ u.regValue (.bMask n) = none))

/-- 10_state.md R52: a write of any word to CMD while BUSY has one effect, OVR set; it is a
successful access. -/
def Obligations.CommandWriteWhileBusyIsDropped : Prop :=
  ∀ (s : State) (v : Word), s.cstate = .busy →
    s.busAccess ⟨.write, 0x000#10, 4, v⟩ = .next { s with response := some .written, ovr := true }

/-- 30_encoding.md R106: a word written to CMD has exactly one of four outcomes, and which one
depends on the word, STATE and HAS_SELECT alone. What `drop`, `accept` and `errorEntry`
leave in the raw slots and the hidden registers is the model's choice (log entries 8, 25, 26). -/
def Obligations.CommandDecisionReadsOnlyStateAndPresence : Prop :=
  ∀ (s : State) (v : Word), ∃ u, s.writeCmd v = .next u ∧
    (s.cstate = .busy ∧ u = s.drop ∨
      s.cstate ≠ .busy ∧ v = 0x00000001#32 ∧ u = s.accept .convert ∨
      s.cstate ≠ .busy ∧ v = 0x00000002#32 ∧ s.params.hasSelect = true ∧ u = s.accept .select ∨
      s.cstate ≠ .busy ∧ v ≠ 0x00000001#32 ∧ (v = 0x00000002#32 → s.params.hasSelect = false) ∧
        u = s.errorEntry .illegalCmd)

/-- 40_convert.md R120 with 10_state.md R51, R53: CONVERT completes. Its acceptance answers a next
state that is BUSY on the latched operands, and the engine's completion from there holds the result
of `convert`, with ST, END, OVR and CAPS unchanged. STATUS reads 0x01 while BUSY, then 0x02, or 0x13
for RANGE_TOO_LARGE and 0x23 for CAPACITY_EXCEEDED (60_exceptions.md R181, R182), OVR apart. -/
def Obligations.ConvertRunsToItsResult : Prop :=
  ∀ s : State, s.cstate ≠ .busy →
    ∃ t u, exec .convert s = .next t ∧
      t.cstate = .busy ∧ t.err = .none ∧ t.opL = .convert ∧ t.stL = s.stReg ∧ t.endL = s.endReg ∧
      t.regValue .status = some (if s.ovr then 0x101#32 else 0x001#32) ∧
      State.runTurn .complete t = .next u ∧
      (∀ l, convert s.stReg s.endReg = .ok l → u.holdsResult (.direct l) ∧
        u.regValue .status = some (if s.ovr then 0x102#32 else 0x002#32)) ∧
      (∀ c, convert s.stReg s.endReg = .fail c → u.holdsResult (.fail c)) ∧
      (convert s.stReg s.endReg = .fail .rangeTooLarge →
        u.regValue .status = some (if s.ovr then 0x113#32 else 0x013#32)) ∧
      (convert s.stReg s.endReg = .fail .capacityExceeded →
        u.regValue .status = some (if s.ovr then 0x123#32 else 0x023#32)) ∧
      u.stReg = s.stReg ∧ u.endReg = s.endReg ∧ u.ovr = s.ovr ∧ u.capsWord = s.capsWord

/-- 41_select.md R160 with 10_state.md R51, R53: SELECT completes on hardware that has it, with the
result of 41_select.md R161. STATUS reads as after CONVERT. -/
def Obligations.SelectRunsToItsResult : Prop :=
  ∀ s : State, s.cstate ≠ .busy → s.params.hasSelect = true →
    ∃ t u, exec .select s = .next t ∧
      t.cstate = .busy ∧ t.err = .none ∧ t.opL = .select ∧ t.stL = s.stReg ∧ t.endL = s.endReg ∧
      t.regValue .status = some (if s.ovr then 0x101#32 else 0x001#32) ∧
      State.runTurn .complete t = .next u ∧
      (∀ c, convert s.stReg s.endReg = .fail c → u.holdsResult (.fail c)) ∧
      (convert s.stReg s.endReg = .fail .rangeTooLarge →
        u.regValue .status = some (if s.ovr then 0x113#32 else 0x013#32)) ∧
      (convert s.stReg s.endReg = .fail .capacityExceeded →
        u.regValue .status = some (if s.ovr then 0x123#32 else 0x023#32)) ∧
      (∀ d, convert s.stReg s.endReg = .ok d →
        u.regValue .status = some (if s.ovr then 0x102#32 else 0x002#32) ∧
        (s.stReg = 0#32 → u.holdsResult (.direct d)) ∧
        (s.stReg ≠ 0#32 → ∃ r a, convert 0#32 (s.stReg - 1#32) = .ok r ∧
          convert 0#32 s.endReg = .ok a ∧
          (r.length + a.length < d.length → u.holdsResult (.split r a)) ∧
          (¬ r.length + a.length < d.length → u.holdsResult (.direct d)))) ∧
      u.stReg = s.stReg ∧ u.endReg = s.endReg ∧ u.ovr = s.ovr ∧ u.capsWord = s.capsWord

/-- 30_encoding.md R105, 60_exceptions.md R183, R190: SELECT on hardware without it is an illegal
word: error entry with code 3 at the write itself; STATUS then reads 0x33, OVR apart. That the raw
bits of the slots (log entry 25) and the hidden registers (log entry 26) stay is the model's
choice. -/
def Obligations.AbsentSelectIsIllegal : Prop :=
  ∀ s : State, s.cstate ≠ .busy → s.params.hasSelect = false →
    ∃ u, exec .select s = .next u ∧
      u = { s with
        cstate := .error, err := .illegalCmd, kind := .direct, countA := 0#6, countB := 0#6 } ∧
      u.regValue .status = some (if s.ovr then 0x133#32 else 0x033#32)

/-- The frame of CONVERT and SELECT at acceptance, 10_state.md R51, R52: what neither ever changes;
what a dropped one leaves; what an accepted one leaves; what an illegal one leaves. The block has no
memory: the host-visible registers and the buffers are all there is. That the raw bits of the slots
stay, which no read shows once they are undefined, is the model's choice (log entry 25), and so is
that the hidden registers stay where no command runs (log entry 26). -/
def Obligations.CommandFrames : Prop :=
  ∀ (i : Instr) (s t : State), exec i s = .next t →
    (t.params = s.params ∧ t.stReg = s.stReg ∧ t.endReg = s.endReg ∧ t.bufA = s.bufA ∧
      t.bufB = s.bufB ∧ t.draws = s.draws ∧ t.response = s.response ∧ t.host = s.host ∧
      t.schedule = s.schedule ∧ t.capsWord = s.capsWord ∧
      (∀ r ∈ [Reg.cmd, Reg.st, Reg.fin, Reg.caps], t.regValue r = s.regValue r)) ∧
    (s.cstate = .busy → t.cstate = s.cstate ∧ t.err = s.err ∧ t.kind = s.kind ∧
      t.countA = s.countA ∧ t.countB = s.countB ∧ t.opL = s.opL ∧ t.stL = s.stL ∧
      t.endL = s.endL ∧ t.engine = s.engine ∧ t.elapsed = s.elapsed) ∧
    (s.cstate ≠ .busy → t.ovr = s.ovr) ∧
    (s.cstate ≠ .busy → i.wf s.params = true →
      t.kind = s.kind ∧ t.countA = s.countA ∧ t.countB = s.countB) ∧
    (s.cstate ≠ .busy → i.wf s.params = false → t.opL = s.opL ∧ t.stL = s.stL ∧ t.endL = s.endL ∧
      t.engine = s.engine ∧ t.elapsed = s.elapsed)

/-- The frame of completion, 10_state.md R53, R54: it leaves ST, END, OVR and CAPS. That the latched
operands still hold their values once the command is over, where 10_state.md R55 has them valid while
BUSY, is the model's choice (log entry 26). That it leaves the raw bits of every slot it does not write is the model's choice (log
entry 25): 10_state.md R53 makes those slots undefined, and a read of one draws (R47). -/
def Obligations.CompletionFrame : Prop :=
  ∀ s : State,
    s.complete.params = s.params ∧ s.complete.stReg = s.stReg ∧ s.complete.endReg = s.endReg ∧
    s.complete.ovr = s.ovr ∧ s.complete.opL = s.opL ∧ s.complete.stL = s.stL ∧
    s.complete.endL = s.endL ∧ s.complete.draws = s.draws ∧ s.complete.response = s.response ∧
    s.complete.host = s.host ∧ s.complete.schedule = s.schedule ∧
    (∀ n : Fin 32, s.complete.countA.toNat ≤ n.val → s.complete.bufA[n] = s.bufA[n]) ∧
    (∀ n : Fin 32, s.complete.countB.toNat ≤ n.val → s.complete.bufB[n] = s.bufB[n])

/-- A step whose turn writes a command word to CMD runs the decoded command (20_memory.md R76,
30_encoding.md R106): step is exec on the state with that turn taken and the access answered. -/
def Obligations.StepRunsTheDecodedCommand : Prop :=
  ∀ (s : State) (v : Word) (i : Instr) (rest : List Turn),
    s.schedule = .bus ⟨.write, 0x000#10, 4, v⟩ :: rest → decode (toLanes v) = .ok i →
    step s = exec i { s with schedule := rest, response := some .written }

/-- The same for a line of the host's program (30_encoding.md R108): `wr CMD, v` on the host's turn
runs the decoded command, and the host goes on with its next line. Every other write line, by name or
raw at the register's offset, has the effect of that write (20_memory.md R76), and the host goes on:
an illegal word to CMD is dropped while BUSY and is ILLEGAL_CMD otherwise, ST and END store, STATUS
may clear OVR, and a read-only register ignores it. `response` is the block's answer (log entry 14),
the host is the model's (log entry 15), raw lines access 4 bytes (log entry 23), and an empty schedule
gives the host its turn when not BUSY (log entry 5). That the raw bits of the slots (log entry 25)
and the hidden registers (log entry 26) stay at an illegal word is the model's choice. -/
def Obligations.HostLineRunsTheDecodedCommand : Prop :=
  ∀ (s s0 : State) (x : HostLine) (r : Reg) (v : Word) (rest : List Turn),
    s.schedule = .host :: rest ∨ (s.schedule = [] ∧ rest = [] ∧ s.cstate ≠ .busy) →
    s.host.prog[s.host.pc]? = some x → x = .wr r v ∨ x = .wrRaw r.offset v →
    s0 = { s with schedule := rest, response := some .written } →
    (r = .cmd → ∀ i, decode (toLanes v) = .ok i →
      ∃ u, exec i s0 = .next u ∧ step s = .next u.hostNext) ∧
    (r = .cmd → ∀ e, decode (toLanes v) = .error e →
      (s.cstate = .busy → step s = .next (State.hostNext { s0 with ovr := true })) ∧
      (s.cstate ≠ .busy → step s = .next (State.hostNext { s0 with
        cstate := .error, err := .illegalCmd, kind := .direct, countA := 0#6, countB := 0#6 }))) ∧
    (r = .st → step s = .next (State.hostNext { s0 with stReg := v })) ∧
    (r = .fin → step s = .next (State.hostNext { s0 with endReg := v })) ∧
    (r = .status → step s = .next (State.hostNext { s0 with ovr := s.ovr && !v.getLsbD 8 })) ∧
    (r ∉ [Reg.cmd, Reg.status, Reg.st, Reg.fin] → step s = .next s0.hostNext)

/-! ### The function of CONVERT -/

/-- 40_convert.md R124: for a cursor with `t` trailing 1 bits the strip loop runs `t` times, then its
test fails, and it leaves `c AND ONES(t)`, `ONES(t)` and `1 << t`, or `i = 0` when `t = 32`. -/
def Obligations.StripLoopClosedForm : Prop :=
  ∀ (c : Word) (t : Nat), t ≤ 32 → (∀ n < t, c.getLsbD n = true) →
    (t < 32 → c.getLsbD t = false) →
    (∀ j < t, (Work.stripRound^[j] (Work.atCursor c)).canStrip = true) ∧
    Work.strip 32 (Work.atCursor c) = Work.stripRound^[t] (Work.atCursor c) ∧
    (Work.strip 32 (Work.atCursor c)).canStrip = false ∧
    Work.strip 32 (Work.atCursor c) =
      ⟨c &&& ones t, ones t, if t < 32 then BitVec.ofNat 32 (2 ^ t) else 0#32⟩

/-- 40_convert.md R125, R131: one outer iteration. With the guard passed and `st` at or below the
cursor, the entry is the aligned block with its top at the cursor and its size the largest power of
two that keeps its bottom at or above `st`. -/
def Obligations.IterationTakesTheLargestBlock : Prop :=
  ∀ st c : Word, st ≤ c → (c = maxWord → st = 0#32) →
    ∃ k, k ≤ 32 ∧ (∀ n < k, c.getLsbD n = true) ∧
      Work.iteration st c = ⟨c &&& ones k, ones k, 1#32 <<< k⟩ ∧ st ≤ c &&& ones k ∧
      (∀ j, k < j → j ≤ 32 → (∀ n < j, c.getLsbD n = true) → c &&& ones j < st) ∧
      (c &&& ones k).toNat + 2 ^ k = c.toNat + 1

/-- 40_convert.md R122: the wraparound guard. RANGE_TOO_LARGE is the result exactly when
`end = 0xFFFFFFFF` and `st != 0`. Then no entry is formed and no loop runs: the engine goes from its
first line to that result. Otherwise the computation proceeds to the outer loop. The micro-steps
(log entry 10) and the empty list before the first line (log entry 8) are the model's choice. -/
def Obligations.WraparoundGuard : Prop :=
  ∀ st fin : Word,
    (convert st fin = .fail .rangeTooLarge ↔ fin = 0xFFFFFFFF#32 ∧ st ≠ 0#32) ∧
    ∀ op : Instr,
      (fin = 0xFFFFFFFF#32 ∧ st ≠ 0#32 → ∀ k : Nat,
        ((Engine.tick op st fin)^[k] Engine.init).list = [] ∧
        (((Engine.tick op st fin)^[k] Engine.init).pos = .start ∨
          ((Engine.tick op st fin)^[k] Engine.init).pos = .finished (.fail .rangeTooLarge))) ∧
      (¬ (fin = 0xFFFFFFFF#32 ∧ st ≠ 0#32) →
        ∃ k : Nat, ((Engine.tick op st fin)^[k] Engine.init).pos = .outer)

/-- 00_scope.md R14, R15: every emitted mask is `ONES(k)`, `k` from 0 to 32 its wildcard count,
`k = 32` only as the single entry (0, 0) of `convert(0, MAX)`, and the wildcard bits of every emitted
pattern are 0. An address matches the entry exactly when it is in its block `[p, p OR NOT m]`
(R16, R17). -/
def Obligations.EmittedEntriesAreWellFormed : Prop :=
  ∀ (st fin : Word) (l : List Entry), convert st fin = .ok l → ∀ e ∈ l,
    (∃ k, k ≤ 32 ∧ e.mask = ones k ∧ wildcardCount e.mask = k ∧
      (k = 32 → st = 0#32 ∧ fin = 0xFFFFFFFF#32 ∧ l = [⟨0#32, 0#32⟩])) ∧
    e.pattern &&& ~~~e.mask = 0#32 ∧ e.wf = true ∧
    ∀ a : Word, e.covers a = true ↔ e.bottom ≤ a ∧ a ≤ e.top

/-- 40_convert.md R133: coverage. On success with `st <= end`, an address matches some entry exactly
when it is in the interval, and no address matches two entries. -/
def Obligations.ConvertCoversTheInterval : Prop :=
  ∀ (st fin : Word) (l : List Entry), convert st fin = .ok l → st ≤ fin →
    (∀ a : Word, (∃ e ∈ l, e.covers a = true) ↔ st ≤ a ∧ a ≤ fin) ∧
    l.Pairwise (fun e f => ∀ a : Word, ¬ (e.covers a = true ∧ f.covers a = true))

/-- 40_convert.md R132: order. On success with `st <= end` the list is not empty, its first block has
its top at `end`, its last pattern is `st`, patterns strictly decrease, and each block has its top
one below the block before it. -/
def Obligations.ConvertListsBlocksFromTheTop : Prop :=
  ∀ (st fin : Word) (l : List Entry), convert st fin = .ok l → st ≤ fin →
    (∃ e ∈ l.head?, e.top = fin) ∧ (∃ e ∈ l.getLast?, e.pattern = st) ∧
    (∀ (n : Nat) (h : n + 1 < l.length),
      l[n + 1].pattern < l[n].pattern ∧ l[n + 1].top = l[n].pattern - 1#32)

/-- 40_convert.md R135: no entry's block can be doubled to an aligned block that stays inside the
interval: an aligned block of `2^k` addresses around it with the interval's bounds has its own
size. -/
def Obligations.EntriesAreMaximal : Prop :=
  ∀ (st fin : Word) (l : List Entry), convert st fin = .ok l → ∀ e ∈ l, ∀ b : Entry,
    b.wf = true → (∀ a : Word, e.covers a = true → b.covers a = true) →
    (∀ a : Word, b.covers a = true → st ≤ a ∧ a ≤ fin) → b = e

/-- 40_convert.md R136: no list of well-formed entries that matches exactly the interval is shorter
than the result. -/
def Obligations.ConvertIsMinimal : Prop :=
  ∀ (st fin : Word) (l : List Entry), convert st fin = .ok l → st ≤ fin →
    ∀ cover : List Entry, (∀ e ∈ cover, e.wf = true) →
      (∀ a : Word, matchesSome cover a = true ↔ st ≤ a ∧ a ≤ fin) → l.length ≤ cover.length

/-- 40_convert.md R137: for an interval that passes the guard, CAPACITY_EXCEEDED is the result
exactly when no 32 well-formed entries match exactly the interval. -/
def Obligations.CapacityFailureMeansNoSmallCover : Prop :=
  ∀ st fin : Word, st ≤ fin → (fin = 0xFFFFFFFF#32 → st = 0#32) →
    (convert st fin = .fail .capacityExceeded ↔
      ¬ ∃ cover : List Entry, cover.length ≤ 32 ∧ (∀ e ∈ cover, e.wf = true) ∧
        ∀ a : Word, matchesSome cover a = true ↔ st ≤ a ∧ a ≤ fin)

/-- 40_convert.md R140: the capacity check is reachable, and 32 entries fit. -/
def Obligations.CapacityCheckIsReachable : Prop :=
  convert 1#32 0xFFFFFFFE#32 = .fail .capacityExceeded ∧
    convert 2#32 0xFFFFFFFE#32 = .fail .capacityExceeded ∧
    (∃ l, convert 0#32 0xFFFFFFFE#32 = .ok l ∧ l.length = 32) ∧
    (∃ l, convert 1#32 0x80000000#32 = .ok l ∧ l.length = 32)

/-- 40_convert.md R141: an interval from zero always succeeds, with one entry for each 1 bit of
`end + 1`; the full domain gives the single entry (0, 0). -/
def Obligations.IntervalsFromZeroSucceed : Prop :=
  (∀ fin : Word, fin ≠ 0xFFFFFFFF#32 → ∃ l, convert 0#32 fin = .ok l ∧
    l.length = (List.range 32).countP fun b => (fin + 1#32).getLsbD b) ∧
  convert 0#32 0xFFFFFFFF#32 = .ok [⟨0#32, 0#32⟩]

/-- 40_convert.md R144, R145: an interval that is one aligned block gives that block as the single
entry; the block of one address is the case `k = 0`. -/
def Obligations.AlignedIntervalIsOneEntry : Prop :=
  ∀ (fin : Word) (k : Nat), k ≤ 32 → (fin = 0xFFFFFFFF#32 → k = 32) →
    (∀ n < k, fin.getLsbD n = true) →
    convert (fin &&& ones k) fin = .ok [⟨fin &&& ones k, ones k⟩]

/-- 40_convert.md R130, 41_select.md R170: an inverted interval is the empty list without an error,
for both commands. -/
def Obligations.InvertedIntervalIsEmpty : Prop :=
  ∀ st fin : Word, fin < st →
    computeResult .convert st fin = .direct [] ∧ computeResult .select st fin = .direct []

/-! ### The function of SELECT -/

/-- 41_select.md R162, R168: SELECT fails exactly when the direct decomposition fails, with the same
code; the alternatives never fail. -/
def Obligations.SelectFailsExactlyAsConvert : Prop :=
  ∀ (st fin : Word) (c : FailCode),
    (computeResult .select st fin = .fail c ↔ convert st fin = .fail c) ∧
    ((∃ a, convert 0#32 fin = .ok a ∧ a.length ≤ 32) ∧
      (st ≠ 0#32 → ∃ r, convert 0#32 (st - 1#32) = .ok r ∧ r.length ≤ 32))

/-- 41_select.md R163: `select(0, x)` is Direct for every `x`. -/
def Obligations.SelectFromZeroIsDirect : Prop :=
  ∀ x : Word, ∃ l, computeResult .select 0#32 x = .direct l ∧ convert 0#32 x = .ok l

/-- 41_select.md R165: for `start > 0`, Split exactly when the summed count of the alternatives is
strictly less than the direct count, each list that of its interval; Direct otherwise. -/
def Obligations.SelectSplitsExactlyWhenCheaper : Prop :=
  ∀ (st fin : Word) (d : List Entry), st ≠ 0#32 → convert st fin = .ok d →
    ∃ r a, convert 0#32 (st - 1#32) = .ok r ∧ convert 0#32 fin = .ok a ∧
      (r.length + a.length < d.length → computeResult .select st fin = .split r a) ∧
      (d.length ≤ r.length + a.length → computeResult .select st fin = .direct d)

/-- 41_select.md R169: with the reject set above the accept set, a Split accepts exactly the
addresses of the interval. -/
def Obligations.SplitAcceptsExactlyTheInterval : Prop :=
  ∀ (st fin : Word) (r a : List Entry), computeResult .select st fin = .split r a →
    ∀ x : Word, splitAccepts r a x = true ↔ st ≤ x ∧ x ≤ fin

/-- 41_select.md R172: Split needs `start >= 1` and at least 3 direct entries. -/
def Obligations.SplitNeedsThreeDirectEntries : Prop :=
  ∀ (st fin : Word) (r a : List Entry), computeResult .select st fin = .split r a →
    st ≠ 0#32 ∧ r ≠ [] ∧ a ≠ [] ∧ ∃ d, convert st fin = .ok d ∧ 3 ≤ d.length

/-- 60_exceptions.md R186: the host-side rendering of an emitted mask never ends in NotAPrefix: the
prefix length is 32 less the wildcard count of a mask `ONES(k)`. -/
def Obligations.EmittedMasksHaveAPrefixLength : Prop :=
  ∀ (st fin : Word) (l : List Entry), convert st fin = .ok l → ∀ e ∈ l,
    ∃ k, k ≤ 32 ∧ e.mask = ones k ∧ prefixLength e.mask = some (32 - k)

/-! ### The engine -/

/-- 10_state.md R49 with 40_convert.md R121, R139 and 41_select.md R161: the engine, line by line
from its first line, reaches the command's result for every operand pair, within 6740
micro-steps. What one micro-step is (log entry 10) and the cleared registers it starts from (log
entry 8) are the model's choice. -/
def Obligations.EngineReachesTheResult : Prop :=
  ∀ (op : Instr) (st fin : Word), ∃ k, k ≤ 6740 ∧
    ((Engine.tick op st fin)^[k] Engine.init).pos = .finished (computeResult op st fin)

/-- 10_state.md R49: from its first line the engine never holds more than 32 entries, and a result it
has is the command's. What one micro-step is (log entry 10) and the cleared registers it starts from
(log entry 8) are the model's choice. -/
def Obligations.EngineResultIsTheCommandsResult : Prop :=
  ∀ (op : Instr) (st fin : Word) (k : Nat),
    ((Engine.tick op st fin)^[k] Engine.init).list.length ≤ 32 ∧
    ∀ r, ((Engine.tick op st fin)^[k] Engine.init).pos = .finished r → r = computeResult op st fin

/-- 70_reset_and_hazards.md R222: completion comes within LAT_MAX engine cycles. In a run that stays
BUSY for `n` steps, the engine cycles among its turns and those before it are fewer than LAT_MAX. How
engine cycles are counted is the model's choice (log entry 3), and so is the turn of an empty
schedule (log entry 5). -/
def Obligations.CompletionComesWithinLatMax : Prop :=
  ∀ (n : Nat) (s : State), s.elapsed < s.params.latMax →
    (∀ k ≤ n, ∃ u, Host.Core.run Sys2Proof.core k s = .next u ∧ u.cstate = .busy) →
    s.elapsed + (s.schedule.take n).count .cycle < s.params.latMax ∧ n ≤ s.schedule.length

/-- 70_reset_and_hazards.md R221: a CMD write while a command may be running is dropped when it
comes before completion and accepted when it comes after; the model admits both orders, as two
schedules (log entry 4). That the latched operands can still be seen after the completion of the
first order is the model's choice (log entry 26). -/
def Obligations.CommandRaceHasBothOutcomes : Prop :=
  ∀ (s : State), s.cstate = .busy → s.opL.wf s.params = true →
    (∃ u, Host.Core.run Sys2Proof.core 2
        { s with schedule := [.bus ⟨.write, 0x000#10, 4, 1#32⟩, .complete] } = .next u ∧
      u.ovr = true ∧ u.cstate ≠ .busy ∧ u.opL = s.opL ∧ u.stL = s.stL ∧ u.endL = s.endL) ∧
    (∃ u, Host.Core.run Sys2Proof.core 2
        { s with schedule := [.complete, .bus ⟨.write, 0x000#10, 4, 1#32⟩] } = .next u ∧
      u.ovr = s.ovr ∧ u.cstate = .busy ∧ u.opL = .convert ∧ u.stL = s.stReg ∧ u.endL = s.endReg)

/-- 20_memory.md R84, 10_state.md R35, R53: in any step from BUSY, the latched operands stay, and
BUSY ends only by completion, which holds the result of those operands, or by reset. The turns are
the model's (log entries 3 to 5). -/
def Obligations.RunningCommandKeepsItsOperands : Prop :=
  ∀ s t : State, s.cstate = .busy → step s = .next t →
    (t.cstate = .busy ∧ t.opL = s.opL ∧ t.stL = s.stL ∧ t.endL = s.endL) ∨
    (t.cstate ≠ .busy ∧ (s.nextTurn = .complete ∨ s.nextTurn = .cycle) ∧
      t.holdsResult (computeResult s.opL s.stL s.endL)) ∨
    (t.cstate = .idle ∧ s.nextTurn = .reset)

/-- 10_state.md R54: nothing else writes host-visible state. In any step, ST and END change only by
a host write to them or by reset; OVR only by a dropped CMD write, a STATUS write with bit 8 set, or
reset; the result registers only by a CMD write when not BUSY, by completion, which leaves BUSY with
the result of the latched operands, or by reset; CAPS never. Completion is the turn `complete`, or
the turn `cycle` that would reach LAT_MAX (log entry 3); every other `cycle` changes none of them.
For the raw bits of the slots this is the model's choice (log entry 25). -/
def Obligations.HostVisibleStateChangesOnlyAsStated : Prop :=
  ∀ s t : State, step s = .next t →
    (t.stReg ≠ s.stReg → s.nextTurn = .reset ∨ s.nextWrite = some (.st, t.stReg)) ∧
    (t.endReg ≠ s.endReg → s.nextTurn = .reset ∨ s.nextWrite = some (.fin, t.endReg)) ∧
    (t.ovr ≠ s.ovr → s.nextTurn = .reset ∨
      (∃ v, s.nextWrite = some (.cmd, v) ∧ s.cstate = .busy ∧ t.ovr = true) ∨
      (∃ v, s.nextWrite = some (.status, v) ∧ v.getLsbD 8 = true ∧ t.ovr = false)) ∧
    ((t.cstate ≠ s.cstate ∨ t.err ≠ s.err ∨ t.kind ≠ s.kind ∨ t.countA ≠ s.countA ∨
        t.countB ≠ s.countB ∨ t.bufA ≠ s.bufA ∨ t.bufB ≠ s.bufB) →
      s.nextTurn = .reset ∨ (∃ v, s.nextWrite = some (.cmd, v) ∧ s.cstate ≠ .busy) ∨
      ((s.nextTurn = .complete ∨
          (s.nextTurn = .cycle ∧ s.params.latMax ≤ s.elapsed + 1)) ∧
        s.cstate = .busy ∧ t.cstate ≠ .busy ∧
        t.holdsResult (computeResult s.opL s.stL s.endL))) ∧
    t.capsWord = s.capsWord ∧ t.params = s.params

/-- 40_convert.md R138, 41_select.md R173: what a host reads after a command depends on the operands,
the command and OVR alone, whatever ran before: two states that agree on ST, END, OVR and
HAS_SELECT read alike, register by register, after the same command has completed. -/
def Obligations.ResultsDoNotDependOnHistory : Prop :=
  ∀ (i : Instr) (s s' : State), s.cstate ≠ .busy → s'.cstate ≠ .busy →
    s.stReg = s'.stReg → s.endReg = s'.endReg → s.ovr = s'.ovr →
    s.params.hasSelect = s'.params.hasSelect →
    ∀ r : Reg, (s.accept i).complete.regValue r = (s'.accept i).complete.regValue r

/-- 60_exceptions.md R180: the block never stops working. In any state, a bus access at any offset
and of any size, an engine turn and a reset all answer a next state, and from any state that is not
BUSY the next CONVERT is accepted. When not BUSY the engine is idle and its turns change nothing
(R201, log entry 21). What the hidden registers hold then is the model's choice (log entry 26). -/
def Obligations.BlockNeverStops : Prop :=
  ∀ s : State,
    (∀ t : Txn, ∃ u, State.runTurn (.bus t) s = .next u) ∧
    (∃ u, State.runTurn .cycle s = .next u) ∧ (∃ u, State.runTurn .complete s = .next u) ∧
    (∃ u, State.runTurn .reset s = .next u) ∧
    (s.cstate ≠ .busy → ∃ u, State.runTurn (.bus ⟨.write, 0x000#10, 4, 1#32⟩) s = .next u ∧
      u.cstate = .busy ∧ u.err = .none) ∧
    (s.cstate ≠ .busy →
      State.runTurn .cycle s = .next s ∧ State.runTurn .complete s = .next s)

/-! ### Reset -/

/-- 70_reset_and_hazards.md R211, R212: reset from any state, BUSY included, gives the values of R211,
leaves every slot undefined, and no completion follows. -/
def Obligations.ResetGivesTheStatedValues : Prop :=
  ∀ s : State, ∃ u, State.runTurn .reset s = .next u ∧
    u.cstate = .idle ∧ u.err = .none ∧ u.ovr = false ∧ u.stReg = 0#32 ∧ u.endReg = 0#32 ∧
    u.kind = .direct ∧ u.countA = 0#6 ∧ u.countB = 0#6 ∧ u.running = false ∧
    u.regValue .cmd = some 0#32 ∧ u.regValue .status = some 0#32 ∧
    u.regValue .result = some 0#32 ∧ u.regValue .countA = some 0#32 ∧
    u.regValue .countB = some 0#32 ∧
    u.regValue .caps = some (if s.params.hasSelect then 0x00000120#32 else 0x00000020#32) ∧
    (∀ n : Fin 32, u.regValue (.aPatt n) = none ∧ u.regValue (.aMask n) = none ∧
      u.regValue (.bPatt n) = none ∧ u.regValue (.bMask n) = none) ∧
    State.runTurn .complete u = .next u ∧ State.runTurn .cycle u = .next u

/-- 70_reset_and_hazards.md R213: a host access in progress while reset is applied is a fault of the
host program (log entry 12). -/
def Obligations.AccessDuringResetFaults : Prop :=
  ∀ (s : State) (t : Txn) (rest : List Turn), s.schedule = .resetDuring t :: rest →
    step s = .fault .accessDuringReset

/-- 70_reset_and_hazards.md R214: right after reset a CONVERT is accepted, and with ST and END
unwritten it gives the one entry (0, 0xFFFFFFFF). That the command comes by `withFetchWord` (log
entry 16) and that the second step, on an empty schedule, is the completion (log entry 5) is the
model's choice. -/
def Obligations.FirstCommandAfterReset : Prop :=
  ∃ u, Host.Core.run Sys2Proof.core 2 (State.reset.withFetchWord 32 1) = .next u ∧
    u.statusWord = 0x00000002#32 ∧ u.countA = 1#6 ∧
    u.regValue (.aPatt 0) = some 0#32 ∧ u.regValue (.aMask 0) = some 0xFFFFFFFF#32

/-! ### The host -/

/-- 30_encoding.md R108: `rd REG -> vN`, or the raw read at the register's offset, puts the
register's value in the variable and goes on; where the read is undefined, a draw (20_memory.md R75,
log entry 6). A variable not written stays as it was, and the block does not change. How the host is
held is the model's choice (log entry 15), and raw lines access 4 bytes (log entry 23). -/
def Obligations.HostReadSetsItsVariable : Prop :=
  ∀ (s : State) (x : HostLine) (r : Reg) (v : Nat), s.host.prog[s.host.pc]? = some x →
    x = .rd r v ∨ x = .rdRaw r.offset v →
    ∃ (u : State) (d : Word) (n : Nat), s.hostTurn = .next u ∧
      (∀ y, s.regValue r = some y → d = y ∧ n = s.draws) ∧
      (s.regValue r = none → d = Config.draw s.draws ∧ n = s.draws + 1) ∧
      readVar v u.host.vars = d ∧
      (∀ w, w ≠ v → readVar w u.host.vars = readVar w s.host.vars) ∧
      u.host.pc = s.host.pc + 1 ∧ u.host.prog = s.host.prog ∧
      u = { s with response := some (.data d), draws := n, host := u.host }

/-- 30_encoding.md R108: the host's `and` and its branches have no bus effect; `and` writes one
variable, and a branch goes to its label's line or to the next line by comparing one variable. How
the host is held is the model's choice (log entry 15). -/
def Obligations.HostLinesWithoutBusEffect : Prop :=
  ∀ (s : State) (d m l k : Nat) (imm : Word), findLabel l s.host.prog = some k →
    (∃ u, s.hostLine (.and d m imm) = .next u ∧
      readVar d u.host.vars = readVar m s.host.vars &&& imm ∧
      (∀ w, w ≠ d → readVar w u.host.vars = readVar w s.host.vars) ∧
      u.host.pc = s.host.pc + 1 ∧ u = { s with host := u.host }) ∧
    s.hostLine (.beq m imm l) = .next { s with host := { s.host with
      pc := if readVar m s.host.vars = imm then k else s.host.pc + 1 } } ∧
    s.hostLine (.bne m imm l) = .next { s with host := { s.host with
      pc := if readVar m s.host.vars = imm then s.host.pc + 1 else k } } ∧
    s.hostLine (.label l) = .next { s with host := { s.host with pc := s.host.pc + 1 } }

/-- 60_exceptions.md R184: an access of the host's program at a reserved or misaligned offset is a
fault of the host program (log entry 11). -/
def Obligations.HostAccessFaultsOnBusError : Prop :=
  ∀ (s : State) (off : BitVec 10) (v : Nat) (imm : Word),
    off.toNat % 4 ≠ 0 ∨ (0x020 ≤ off.toNat ∧ off.toNat ≤ 0x0FF) ∨ 0x300 ≤ off.toNat →
    s.hostLine (.rdRaw off v) = .fault .busError ∧ s.hostLine (.wrRaw off imm) = .fault .busError

/-! ### The invariant -/

/-- The machine's invariant holds right after reset: what the rules named at `State.Inv` say of every
reachable state is true of the state of 70_reset_and_hazards.md R211. The clauses that rest on the
model's own choices are named at InvariantKeptByEveryStep. -/
def Obligations.InvariantHoldsAtReset : Prop := State.reset.Inv

/-- Every step keeps the machine's invariant: ERR is nonzero exactly in ERROR, counts are at most
CAPACITY, no result in IDLE or ERROR, a running or completed SELECT is present, and DONE or a failure
shows the result of its command. The model's own choices are the count of engine cycles in the bound
LAT_MAX (log entry 3), the engine's micro-steps and its cleared start (log entries 8 and 10), the
latched operands as they stay after completion (log entry 26), and the host variables' order (log
entry 15). -/
def Obligations.InvariantKeptByEveryStep : Prop :=
  ∀ s t : State, s.Inv → step s = .next t → t.Inv

end
end

