-- ==== Sys2Proof/Laws/Convert.lean ====
section
/-! SUPPORT. What the working-register operations, one outer iteration and `convert` do
(40_convert.md R124, R125, R131): the lemmas that later proofs cite instead of unfolding them. -/

namespace Sys2Proof.Machine

/-- The working registers of cursor `c` with the low `j` bits stripped. -/
def Work.stripped (c : Word) (j : Nat) : Work := ⟨c &&& ones j, ones j, 1#32 <<< j⟩

theorem getLsbD_ones (j n : Nat) : (ones j).getLsbD n = (decide (n < 32) && decide (j ≤ n)) := by
  unfold ones
  rw [BitVec.getLsbD_shiftLeft, show maxWord = BitVec.allOnes 32 from rfl]
  rw [BitVec.getLsbD_allOnes]
  by_cases h : n < 32 <;> by_cases h2 : j ≤ n <;> simp [h, h2] <;> omega

theorem and_ones_zero (c : Word) : c &&& ones 0 = c := by
  apply BitVec.eq_of_getLsbD_eq
  intro n hn
  simp [getLsbD_ones, hn]

theorem getLsbD_one_shiftLeft (j n : Nat) :
    (1#32 <<< j).getLsbD n = (decide (n < 32) && decide (n = j)) := by
  rw [BitVec.getLsbD_shiftLeft]
  by_cases h : n < 32 <;> by_cases h2 : n = j <;> by_cases h3 : n < j <;>
    simp [h, h2, h3, BitVec.getLsbD_one] <;> omega

@[simp] theorem Work.stripped_patt (c : Word) (j : Nat) : (Work.stripped c j).patt = c &&& ones j := rfl
@[simp] theorem Work.stripped_mask (c : Word) (j : Nat) : (Work.stripped c j).mask = ones j := rfl

theorem Work.atCursor_eq (c : Word) : Work.atCursor c = Work.stripped c 0 := by
  simp only [Work.atCursor, Work.stripped, and_ones_zero, Work.mk.injEq, true_and]
  exact ⟨rfl, rfl⟩

theorem Work.stripRound_stripped (c : Word) (j : Nat) :
    (Work.stripped c j).stripRound = Work.stripped c (j + 1) := by
  simp only [Work.stripRound, Work.stripped, Work.mk.injEq]
  refine ⟨?_, ?_, ?_⟩
  · apply BitVec.eq_of_getLsbD_eq
    intro n hn
    simp only [BitVec.getLsbD_and, BitVec.getLsbD_not, getLsbD_ones, getLsbD_one_shiftLeft, hn,
      decide_true, Bool.true_and]
    by_cases h : n = j <;> by_cases h2 : j ≤ n <;> simp [h, h2] <;> omega
  · apply BitVec.eq_of_getLsbD_eq
    intro n hn
    rw [BitVec.getLsbD_shiftLeft, getLsbD_ones, getLsbD_ones]
    by_cases h : n < 1 <;> by_cases h2 : j + 1 ≤ n <;> simp [h, h2, hn] <;> omega
  · rw [BitVec.shiftLeft_add]

theorem Work.canStrip_stripped (c : Word) (j : Nat) : (Work.stripped c j).canStrip = c.getLsbD j := by
  have key : (c &&& ones j &&& 1#32 <<< j) = if c.getLsbD j then 1#32 <<< j else 0#32 := by
    apply BitVec.eq_of_getLsbD_eq
    intro n hn
    simp only [BitVec.getLsbD_and, getLsbD_ones, getLsbD_one_shiftLeft]
    by_cases h : n = j
    · subst h
      cases hc : c.getLsbD n <;> simp [hn]
    · cases hc : c.getLsbD j <;> simp [hn, h]
      omega
  simp only [Work.canStrip, Work.stripped, key]
  by_cases hc : c.getLsbD j
  · have hj : j < 32 := BitVec.lt_of_getLsbD hc
    have : (1#32 <<< j) ≠ 0#32 := by
      intro h0
      have := congrArg (·.getLsbD j) h0
      simp [hj] at this
    simp [hc, this]
  · simp [hc]

theorem Work.retractRound_stripped (c : Word) (j : Nat) (hj : j + 1 < 32) (hb : c.getLsbD j = true) :
    (Work.stripped c (j + 1)).retractRound = Work.stripped c j := by
  have hi : (1#32 <<< (j + 1)) >>> 1 = 1#32 <<< j := by
    apply BitVec.eq_of_getLsbD_eq
    intro n hn
    rw [BitVec.getLsbD_ushiftRight, getLsbD_one_shiftLeft, getLsbD_one_shiftLeft]
    by_cases h : n = j
    · subst h; simp [hn, show 1 + n = n + 1 by omega, hj]
    · simp [h, show ¬ 1 + n = j + 1 by omega]
  simp only [Work.retractRound, Work.stripped, hi, Work.mk.injEq, and_true]
  constructor <;>
  · apply BitVec.eq_of_getLsbD_eq
    intro n hn
    simp only [BitVec.getLsbD_and, BitVec.getLsbD_or, getLsbD_ones, getLsbD_one_shiftLeft, hn,
      decide_true, Bool.true_and]
    by_cases h : n = j
    · subst h; simp [hb]
    · by_cases h2 : j ≤ n <;> by_cases h3 : j + 1 ≤ n <;> simp [h, h2, h3] <;> omega

/-- The strip loop stops at the first clear bit of the cursor (R124). -/
theorem Work.strip_stripped (c : Word) (fuel j : Nat) :
    ∃ t, j ≤ t ∧ t ≤ j + fuel ∧ Work.strip fuel (Work.stripped c j) = Work.stripped c t ∧
      (∀ n, j ≤ n → n < t → c.getLsbD n = true) ∧ (t < j + fuel → c.getLsbD t = false) := by
  induction fuel generalizing j with
  | zero => exact ⟨j, le_rfl, le_rfl, rfl, fun n h1 h2 => by omega, fun h => by omega⟩
  | succ fuel ih =>
    rw [Work.strip, Work.canStrip_stripped, Work.stripRound_stripped]
    by_cases hb : c.getLsbD j
    · obtain ⟨t, h1, h2, h3, h4, h5⟩ := ih (j + 1)
      refine ⟨t, by omega, by omega, by simp [hb, h3], fun n hn1 hn2 => ?_, fun h => h5 (by omega)⟩
      rcases Nat.lt_or_ge j n with h | h
      · exact h4 n h hn2
      · exact (show n = j by omega) ▸ hb
    · exact ⟨j, le_rfl, by omega, by simp [hb], fun n h1 h2 => by omega, fun _ => by simpa using hb⟩

/-- The retract loop stops at the largest number of stripped bits whose block starts at or above
`st` (R125). -/
theorem Work.retract_stripped (st c : Word) (fuel t : Nat) (hf : t ≤ fuel)
    (hb : ∀ n < t, c.getLsbD n = true) (hst : st ≤ c) (ht : t = 32 → st = 0#32) :
    ∃ k, k ≤ t ∧ Work.retract st fuel (Work.stripped c t) = Work.stripped c k ∧
      st ≤ c &&& ones k ∧ (∀ j, k < j → j ≤ t → c &&& ones j < st) := by
  induction t generalizing fuel with
  | zero =>
    have h0 : c &&& ones 0 = c := and_ones_zero c
    refine ⟨0, le_rfl, ?_, by simpa [h0] using hst, fun j h1 h2 => by omega⟩
    cases fuel with
    | zero => rfl
    | succ f =>
      rw [Work.retract, Work.stripped_patt, h0, if_neg (by simpa using hst)]
  | succ t ih =>
    obtain ⟨f, rfl⟩ : ∃ f, fuel = f + 1 := ⟨fuel - 1, by omega⟩
    rw [Work.retract, Work.stripped_patt]
    by_cases hlt : c &&& ones (t + 1) < st
    · have h32 : t + 1 < 32 := by
        rcases Nat.lt_or_ge (t + 1) 32 with h | h
        · exact h
        · exfalso
          have : t < 32 := BitVec.lt_of_getLsbD (hb t (by omega))
          rw [ht (by omega)] at hlt
          simp [BitVec.lt_def] at hlt
      rw [if_pos hlt, Work.retractRound_stripped c t h32 (hb t (by omega))]
      obtain ⟨k, h1, h2, h3, h4⟩ :=
        ih f (by omega) (fun n hn => hb n (by omega)) (fun h => by omega)
      refine ⟨k, by omega, h2, h3, fun j hj1 hj2 => ?_⟩
      rcases Nat.lt_or_ge t j with h | h
      · exact (show j = t + 1 by omega) ▸ hlt
      · exact h4 j hj1 h
    · rw [if_neg hlt]
      exact ⟨t + 1, le_rfl, rfl, by simpa using hlt, fun j h1 h2 => by omega⟩

/-- Clearing the low `k` bits, as a number. -/
theorem toNat_and_ones (c : Word) (k : Nat) : (c &&& ones k).toNat = c.toNat - c.toNat % 2 ^ k := by
  have h : c &&& ones k = (c >>> k) <<< k := by
    apply BitVec.eq_of_getLsbD_eq
    intro n hn
    rw [BitVec.getLsbD_and, getLsbD_ones, BitVec.getLsbD_shiftLeft, BitVec.getLsbD_ushiftRight]
    by_cases h2 : k ≤ n
    · simp [h2, hn, show ¬ n < k by omega, show k + (n - k) = n by omega]
    · simp [h2, show n < k by omega]
  rw [h, BitVec.toNat_shiftLeft, BitVec.toNat_ushiftRight, Nat.shiftRight_eq_div_pow,
    Nat.shiftLeft_eq, Nat.mod_eq_of_lt]
  · have := Nat.div_add_mod c.toNat (2 ^ k)
    rw [Nat.mul_comm] at this; omega
  · exact lt_of_le_of_lt (Nat.div_mul_le_self _ _) c.isLt

/-- The low `k` bits are all 1 exactly when the successor is a multiple of `2^k`. -/
theorem low_bits_set_iff (c : Word) (k : Nat) :
    (∀ n < k, c.getLsbD n = true) ↔ 2 ^ k ∣ c.toNat + 1 := by
  have hmod : c.toNat % 2 ^ k = 2 ^ k - 1 ↔ 2 ^ k ∣ c.toNat + 1 := by
    have hp : 0 < 2 ^ k := Nat.two_pow_pos k
    have hlt := Nat.mod_lt c.toNat hp
    rw [Nat.dvd_iff_mod_eq_zero, Nat.add_mod]
    constructor
    · intro h
      rcases Nat.lt_or_ge 1 (2 ^ k) with h1 | h1
      · rw [Nat.mod_eq_of_lt h1, h, Nat.sub_add_cancel hp, Nat.mod_self]
      · have : 2 ^ k = 1 := by omega
        simp [this, Nat.mod_one]
    · intro h
      rcases Nat.lt_or_ge 1 (2 ^ k) with h1 | h1
      · rw [Nat.mod_eq_of_lt h1] at h
        by_contra hne
        rw [Nat.mod_eq_of_lt (by omega)] at h
        omega
      · omega
  rw [← hmod]
  constructor
  · intro h
    apply Nat.eq_of_testBit_eq
    intro i
    rw [Nat.testBit_mod_two_pow, Nat.testBit_two_pow_sub_one]
    by_cases hi : i < k
    · have := h i hi
      rw [BitVec.getLsbD] at this
      simp [hi, this]
    · simp [hi]
  · intro h n hn
    have := congrArg (·.testBit n) h
    simp only [Nat.testBit_mod_two_pow, Nat.testBit_two_pow_sub_one, hn, decide_true,
      Bool.true_and] at this
    exact this

/-- One outer iteration (R131): with the guard passed, the block is `[c + 1 - 2^k, c]` for the
largest `k` that keeps it aligned and at or above `st`. -/
theorem Work.iteration_spec (st c : Word) (hst : st ≤ c) (hg : c = maxWord → st = 0#32) :
    ∃ k, k ≤ 32 ∧ Work.iteration st c = Work.stripped c k ∧ 2 ^ k ∣ c.toNat + 1 ∧
      st.toNat + 2 ^ k ≤ c.toNat + 1 ∧ (c &&& ones k).toNat = c.toNat + 1 - 2 ^ k ∧
      (∀ j, 2 ^ j ∣ c.toNat + 1 → st.toNat + 2 ^ j ≤ c.toNat + 1 → j ≤ k) := by
  obtain ⟨t, -, ht, hs, hb, hclear⟩ := Work.strip_stripped c 32 0
  have hb' : ∀ n < t, c.getLsbD n = true := fun n hn => hb n (Nat.zero_le n) hn
  have ht32 : t ≤ 32 := by omega
  have hmax : t = 32 → st = 0#32 := by
    rintro rfl
    refine hg (BitVec.eq_of_getLsbD_eq fun n hn => ?_)
    rw [hb' n hn, show maxWord = BitVec.allOnes 32 from rfl, BitVec.getLsbD_allOnes]
    simp [hn]
  obtain ⟨k, hk, hr, hle, hbig⟩ := Work.retract_stripped st c 32 t ht32 hb' hst hmax
  have hdvd : 2 ^ k ∣ c.toNat + 1 :=
    (low_bits_set_iff c k).1 fun n hn => hb' n (by omega)
  have hval : ∀ j, 2 ^ j ∣ c.toNat + 1 → (c &&& ones j).toNat = c.toNat + 1 - 2 ^ j := by
    intro j hj
    rw [toNat_and_ones]
    have hp : 0 < 2 ^ j := Nat.two_pow_pos j
    obtain ⟨q, hq⟩ := hj
    have hq0 : 0 < q := by
      rcases Nat.eq_zero_or_pos q with h | h
      · subst h; omega
      · exact h
    have hc : c.toNat = 2 ^ j * (q - 1) + (2 ^ j - 1) := by
      have : 2 ^ j * q = 2 ^ j * (q - 1) + 2 ^ j := by
        conv_lhs => rw [show q = q - 1 + 1 by omega]
        rw [Nat.mul_add, Nat.mul_one]
      omega
    have hm : c.toNat % 2 ^ j = 2 ^ j - 1 := by
      rw [hc, Nat.mul_add_mod]; exact Nat.mod_eq_of_lt (by omega)
    omega
  have hkle : 2 ^ k ≤ c.toNat + 1 := Nat.le_of_dvd (by omega) hdvd
  refine ⟨k, by omega, ?_, hdvd, ?_, hval k hdvd, fun j hj hjst => ?_⟩
  · rw [Work.iteration, Work.atCursor_eq, hs, hr]
  · have := hval k hdvd
    rw [BitVec.le_def] at hle
    omega
  · by_contra hlt
    have hj32 : j ≤ 32 := by
      have h1 := Nat.le_of_dvd (by omega) hj
      have h2 := c.isLt
      exact (Nat.pow_le_pow_iff_right (by norm_num : 1 < 2)).1 (by omega)
    have hjt : j ≤ t := by
      by_contra hjt
      have hset := (low_bits_set_iff c j).2 hj t (by omega)
      rw [hclear (by omega)] at hset
      exact absurd hset (by simp)
    have := hbig j (by omega) hjt
    rw [BitVec.lt_def, hval j hj] at this
    omega

end Sys2Proof.Machine
end

