-- ==== Sys2Proof/Laws/State.lean ====
section
/-! SUPPORT. One lemma per field per update of State, true by rfl, so that no later proof unfolds a
record update. -/

namespace Sys2Proof.Machine


/-! `State.drop` -/

@[simp] theorem State.drop_params (s : State) : (s.drop).params = s.params := rfl
@[simp] theorem State.drop_cstate (s : State) : (s.drop).cstate = s.cstate := rfl
@[simp] theorem State.drop_err (s : State) : (s.drop).err = s.err := rfl
@[simp] theorem State.drop_ovr (s : State) : (s.drop).ovr = true := rfl
@[simp] theorem State.drop_stReg (s : State) : (s.drop).stReg = s.stReg := rfl
@[simp] theorem State.drop_endReg (s : State) : (s.drop).endReg = s.endReg := rfl
@[simp] theorem State.drop_kind (s : State) : (s.drop).kind = s.kind := rfl
@[simp] theorem State.drop_countA (s : State) : (s.drop).countA = s.countA := rfl
@[simp] theorem State.drop_countB (s : State) : (s.drop).countB = s.countB := rfl
@[simp] theorem State.drop_bufA (s : State) : (s.drop).bufA = s.bufA := rfl
@[simp] theorem State.drop_bufB (s : State) : (s.drop).bufB = s.bufB := rfl
@[simp] theorem State.drop_opL (s : State) : (s.drop).opL = s.opL := rfl
@[simp] theorem State.drop_stL (s : State) : (s.drop).stL = s.stL := rfl
@[simp] theorem State.drop_endL (s : State) : (s.drop).endL = s.endL := rfl
@[simp] theorem State.drop_engine (s : State) : (s.drop).engine = s.engine := rfl
@[simp] theorem State.drop_elapsed (s : State) : (s.drop).elapsed = s.elapsed := rfl
@[simp] theorem State.drop_draws (s : State) : (s.drop).draws = s.draws := rfl
@[simp] theorem State.drop_response (s : State) : (s.drop).response = s.response := rfl
@[simp] theorem State.drop_host (s : State) : (s.drop).host = s.host := rfl
@[simp] theorem State.drop_schedule (s : State) : (s.drop).schedule = s.schedule := rfl

/-! `State.errorEntry` -/

@[simp] theorem State.errorEntry_params (s : State) (c : ErrCode) : (s.errorEntry c).params = s.params := rfl
@[simp] theorem State.errorEntry_cstate (s : State) (c : ErrCode) : (s.errorEntry c).cstate = .error := rfl
@[simp] theorem State.errorEntry_err (s : State) (c : ErrCode) : (s.errorEntry c).err = c := rfl
@[simp] theorem State.errorEntry_ovr (s : State) (c : ErrCode) : (s.errorEntry c).ovr = s.ovr := rfl
@[simp] theorem State.errorEntry_stReg (s : State) (c : ErrCode) : (s.errorEntry c).stReg = s.stReg := rfl
@[simp] theorem State.errorEntry_endReg (s : State) (c : ErrCode) : (s.errorEntry c).endReg = s.endReg := rfl
@[simp] theorem State.errorEntry_kind (s : State) (c : ErrCode) : (s.errorEntry c).kind = .direct := rfl
@[simp] theorem State.errorEntry_countA (s : State) (c : ErrCode) : (s.errorEntry c).countA = 0#6 := rfl
@[simp] theorem State.errorEntry_countB (s : State) (c : ErrCode) : (s.errorEntry c).countB = 0#6 := rfl
@[simp] theorem State.errorEntry_bufA (s : State) (c : ErrCode) : (s.errorEntry c).bufA = s.bufA := rfl
@[simp] theorem State.errorEntry_bufB (s : State) (c : ErrCode) : (s.errorEntry c).bufB = s.bufB := rfl
@[simp] theorem State.errorEntry_opL (s : State) (c : ErrCode) : (s.errorEntry c).opL = s.opL := rfl
@[simp] theorem State.errorEntry_stL (s : State) (c : ErrCode) : (s.errorEntry c).stL = s.stL := rfl
@[simp] theorem State.errorEntry_endL (s : State) (c : ErrCode) : (s.errorEntry c).endL = s.endL := rfl
@[simp] theorem State.errorEntry_engine (s : State) (c : ErrCode) : (s.errorEntry c).engine = s.engine := rfl
@[simp] theorem State.errorEntry_elapsed (s : State) (c : ErrCode) : (s.errorEntry c).elapsed = s.elapsed := rfl
@[simp] theorem State.errorEntry_draws (s : State) (c : ErrCode) : (s.errorEntry c).draws = s.draws := rfl
@[simp] theorem State.errorEntry_response (s : State) (c : ErrCode) : (s.errorEntry c).response = s.response := rfl
@[simp] theorem State.errorEntry_host (s : State) (c : ErrCode) : (s.errorEntry c).host = s.host := rfl
@[simp] theorem State.errorEntry_schedule (s : State) (c : ErrCode) : (s.errorEntry c).schedule = s.schedule := rfl

/-! `State.accept` -/

@[simp] theorem State.accept_params (s : State) (i : Instr) : (s.accept i).params = s.params := rfl
@[simp] theorem State.accept_cstate (s : State) (i : Instr) : (s.accept i).cstate = .busy := rfl
@[simp] theorem State.accept_err (s : State) (i : Instr) : (s.accept i).err = .none := rfl
@[simp] theorem State.accept_ovr (s : State) (i : Instr) : (s.accept i).ovr = s.ovr := rfl
@[simp] theorem State.accept_stReg (s : State) (i : Instr) : (s.accept i).stReg = s.stReg := rfl
@[simp] theorem State.accept_endReg (s : State) (i : Instr) : (s.accept i).endReg = s.endReg := rfl
@[simp] theorem State.accept_kind (s : State) (i : Instr) : (s.accept i).kind = s.kind := rfl
@[simp] theorem State.accept_countA (s : State) (i : Instr) : (s.accept i).countA = s.countA := rfl
@[simp] theorem State.accept_countB (s : State) (i : Instr) : (s.accept i).countB = s.countB := rfl
@[simp] theorem State.accept_bufA (s : State) (i : Instr) : (s.accept i).bufA = s.bufA := rfl
@[simp] theorem State.accept_bufB (s : State) (i : Instr) : (s.accept i).bufB = s.bufB := rfl
@[simp] theorem State.accept_opL (s : State) (i : Instr) : (s.accept i).opL = i := rfl
@[simp] theorem State.accept_stL (s : State) (i : Instr) : (s.accept i).stL = s.stReg := rfl
@[simp] theorem State.accept_endL (s : State) (i : Instr) : (s.accept i).endL = s.endReg := rfl
@[simp] theorem State.accept_engine (s : State) (i : Instr) : (s.accept i).engine = Engine.init := rfl
@[simp] theorem State.accept_elapsed (s : State) (i : Instr) : (s.accept i).elapsed = 0 := rfl
@[simp] theorem State.accept_draws (s : State) (i : Instr) : (s.accept i).draws = s.draws := rfl
@[simp] theorem State.accept_response (s : State) (i : Instr) : (s.accept i).response = s.response := rfl
@[simp] theorem State.accept_host (s : State) (i : Instr) : (s.accept i).host = s.host := rfl
@[simp] theorem State.accept_schedule (s : State) (i : Instr) : (s.accept i).schedule = s.schedule := rfl

/-! The state after `State.draw` -/

@[simp] theorem State.draw_state_params (s : State) : (s.draw.2).params = s.params := rfl
@[simp] theorem State.draw_state_cstate (s : State) : (s.draw.2).cstate = s.cstate := rfl
@[simp] theorem State.draw_state_err (s : State) : (s.draw.2).err = s.err := rfl
@[simp] theorem State.draw_state_ovr (s : State) : (s.draw.2).ovr = s.ovr := rfl
@[simp] theorem State.draw_state_stReg (s : State) : (s.draw.2).stReg = s.stReg := rfl
@[simp] theorem State.draw_state_endReg (s : State) : (s.draw.2).endReg = s.endReg := rfl
@[simp] theorem State.draw_state_kind (s : State) : (s.draw.2).kind = s.kind := rfl
@[simp] theorem State.draw_state_countA (s : State) : (s.draw.2).countA = s.countA := rfl
@[simp] theorem State.draw_state_countB (s : State) : (s.draw.2).countB = s.countB := rfl
@[simp] theorem State.draw_state_bufA (s : State) : (s.draw.2).bufA = s.bufA := rfl
@[simp] theorem State.draw_state_bufB (s : State) : (s.draw.2).bufB = s.bufB := rfl
@[simp] theorem State.draw_state_opL (s : State) : (s.draw.2).opL = s.opL := rfl
@[simp] theorem State.draw_state_stL (s : State) : (s.draw.2).stL = s.stL := rfl
@[simp] theorem State.draw_state_endL (s : State) : (s.draw.2).endL = s.endL := rfl
@[simp] theorem State.draw_state_engine (s : State) : (s.draw.2).engine = s.engine := rfl
@[simp] theorem State.draw_state_elapsed (s : State) : (s.draw.2).elapsed = s.elapsed := rfl
@[simp] theorem State.draw_state_draws (s : State) : (s.draw.2).draws = s.draws + 1 := rfl
@[simp] theorem State.draw_state_response (s : State) : (s.draw.2).response = s.response := rfl
@[simp] theorem State.draw_state_host (s : State) : (s.draw.2).host = s.host := rfl
@[simp] theorem State.draw_state_schedule (s : State) : (s.draw.2).schedule = s.schedule := rfl

/-! `State.applyReset` -/

@[simp] theorem State.applyReset_params (s : State) : (s.applyReset).params = s.params := rfl
@[simp] theorem State.applyReset_cstate (s : State) : (s.applyReset).cstate = .idle := rfl
@[simp] theorem State.applyReset_err (s : State) : (s.applyReset).err = .none := rfl
@[simp] theorem State.applyReset_ovr (s : State) : (s.applyReset).ovr = false := rfl
@[simp] theorem State.applyReset_stReg (s : State) : (s.applyReset).stReg = 0#32 := rfl
@[simp] theorem State.applyReset_endReg (s : State) : (s.applyReset).endReg = 0#32 := rfl
@[simp] theorem State.applyReset_kind (s : State) : (s.applyReset).kind = .direct := rfl
@[simp] theorem State.applyReset_countA (s : State) : (s.applyReset).countA = 0#6 := rfl
@[simp] theorem State.applyReset_countB (s : State) : (s.applyReset).countB = 0#6 := rfl
@[simp] theorem State.applyReset_bufA (s : State) : (s.applyReset).bufA = Vector.replicate 32 Entry.zero := rfl
@[simp] theorem State.applyReset_bufB (s : State) : (s.applyReset).bufB = Vector.replicate 32 Entry.zero := rfl
@[simp] theorem State.applyReset_opL (s : State) : (s.applyReset).opL = .convert := rfl
@[simp] theorem State.applyReset_stL (s : State) : (s.applyReset).stL = 0#32 := rfl
@[simp] theorem State.applyReset_endL (s : State) : (s.applyReset).endL = 0#32 := rfl
@[simp] theorem State.applyReset_engine (s : State) : (s.applyReset).engine = Engine.reset := rfl
@[simp] theorem State.applyReset_elapsed (s : State) : (s.applyReset).elapsed = 0 := rfl
@[simp] theorem State.applyReset_draws (s : State) : (s.applyReset).draws = s.draws := rfl
@[simp] theorem State.applyReset_response (s : State) : (s.applyReset).response = none := rfl
@[simp] theorem State.applyReset_host (s : State) : (s.applyReset).host = s.host := rfl
@[simp] theorem State.applyReset_schedule (s : State) : (s.applyReset).schedule = s.schedule := rfl

/-! `State.hostNext` -/

@[simp] theorem State.hostNext_params (s : State) : (s.hostNext).params = s.params := rfl
@[simp] theorem State.hostNext_cstate (s : State) : (s.hostNext).cstate = s.cstate := rfl
@[simp] theorem State.hostNext_err (s : State) : (s.hostNext).err = s.err := rfl
@[simp] theorem State.hostNext_ovr (s : State) : (s.hostNext).ovr = s.ovr := rfl
@[simp] theorem State.hostNext_stReg (s : State) : (s.hostNext).stReg = s.stReg := rfl
@[simp] theorem State.hostNext_endReg (s : State) : (s.hostNext).endReg = s.endReg := rfl
@[simp] theorem State.hostNext_kind (s : State) : (s.hostNext).kind = s.kind := rfl
@[simp] theorem State.hostNext_countA (s : State) : (s.hostNext).countA = s.countA := rfl
@[simp] theorem State.hostNext_countB (s : State) : (s.hostNext).countB = s.countB := rfl
@[simp] theorem State.hostNext_bufA (s : State) : (s.hostNext).bufA = s.bufA := rfl
@[simp] theorem State.hostNext_bufB (s : State) : (s.hostNext).bufB = s.bufB := rfl
@[simp] theorem State.hostNext_opL (s : State) : (s.hostNext).opL = s.opL := rfl
@[simp] theorem State.hostNext_stL (s : State) : (s.hostNext).stL = s.stL := rfl
@[simp] theorem State.hostNext_endL (s : State) : (s.hostNext).endL = s.endL := rfl
@[simp] theorem State.hostNext_engine (s : State) : (s.hostNext).engine = s.engine := rfl
@[simp] theorem State.hostNext_elapsed (s : State) : (s.hostNext).elapsed = s.elapsed := rfl
@[simp] theorem State.hostNext_draws (s : State) : (s.hostNext).draws = s.draws := rfl
@[simp] theorem State.hostNext_response (s : State) : (s.hostNext).response = s.response := rfl
@[simp] theorem State.hostNext_host (s : State) : (s.hostNext).host = { s.host with pc := s.host.pc + 1 } := rfl
@[simp] theorem State.hostNext_schedule (s : State) : (s.hostNext).schedule = s.schedule := rfl

/-! `State.hostSet` -/

@[simp] theorem State.hostSet_params (s : State) (v : Nat) (x : Word) : (s.hostSet v x).params = s.params := rfl
@[simp] theorem State.hostSet_cstate (s : State) (v : Nat) (x : Word) : (s.hostSet v x).cstate = s.cstate := rfl
@[simp] theorem State.hostSet_err (s : State) (v : Nat) (x : Word) : (s.hostSet v x).err = s.err := rfl
@[simp] theorem State.hostSet_ovr (s : State) (v : Nat) (x : Word) : (s.hostSet v x).ovr = s.ovr := rfl
@[simp] theorem State.hostSet_stReg (s : State) (v : Nat) (x : Word) : (s.hostSet v x).stReg = s.stReg := rfl
@[simp] theorem State.hostSet_endReg (s : State) (v : Nat) (x : Word) : (s.hostSet v x).endReg = s.endReg := rfl
@[simp] theorem State.hostSet_kind (s : State) (v : Nat) (x : Word) : (s.hostSet v x).kind = s.kind := rfl
@[simp] theorem State.hostSet_countA (s : State) (v : Nat) (x : Word) : (s.hostSet v x).countA = s.countA := rfl
@[simp] theorem State.hostSet_countB (s : State) (v : Nat) (x : Word) : (s.hostSet v x).countB = s.countB := rfl
@[simp] theorem State.hostSet_bufA (s : State) (v : Nat) (x : Word) : (s.hostSet v x).bufA = s.bufA := rfl
@[simp] theorem State.hostSet_bufB (s : State) (v : Nat) (x : Word) : (s.hostSet v x).bufB = s.bufB := rfl
@[simp] theorem State.hostSet_opL (s : State) (v : Nat) (x : Word) : (s.hostSet v x).opL = s.opL := rfl
@[simp] theorem State.hostSet_stL (s : State) (v : Nat) (x : Word) : (s.hostSet v x).stL = s.stL := rfl
@[simp] theorem State.hostSet_endL (s : State) (v : Nat) (x : Word) : (s.hostSet v x).endL = s.endL := rfl
@[simp] theorem State.hostSet_engine (s : State) (v : Nat) (x : Word) : (s.hostSet v x).engine = s.engine := rfl
@[simp] theorem State.hostSet_elapsed (s : State) (v : Nat) (x : Word) : (s.hostSet v x).elapsed = s.elapsed := rfl
@[simp] theorem State.hostSet_draws (s : State) (v : Nat) (x : Word) : (s.hostSet v x).draws = s.draws := rfl
@[simp] theorem State.hostSet_response (s : State) (v : Nat) (x : Word) : (s.hostSet v x).response = s.response := rfl
@[simp] theorem State.hostSet_host (s : State) (v : Nat) (x : Word) : (s.hostSet v x).host = { s.host with vars := writeVar v x s.host.vars, pc := s.host.pc + 1 } := rfl
@[simp] theorem State.hostSet_schedule (s : State) (v : Nat) (x : Word) : (s.hostSet v x).schedule = s.schedule := rfl

/-! `State.writeBack` of a Direct result -/

@[simp] theorem State.writeBack_direct_params (s : State) (l : List Entry) : (s.writeBack (.direct l)).params = s.params := rfl
@[simp] theorem State.writeBack_direct_cstate (s : State) (l : List Entry) : (s.writeBack (.direct l)).cstate = .done := rfl
@[simp] theorem State.writeBack_direct_err (s : State) (l : List Entry) : (s.writeBack (.direct l)).err = .none := rfl
@[simp] theorem State.writeBack_direct_ovr (s : State) (l : List Entry) : (s.writeBack (.direct l)).ovr = s.ovr := rfl
@[simp] theorem State.writeBack_direct_stReg (s : State) (l : List Entry) : (s.writeBack (.direct l)).stReg = s.stReg := rfl
@[simp] theorem State.writeBack_direct_endReg (s : State) (l : List Entry) : (s.writeBack (.direct l)).endReg = s.endReg := rfl
@[simp] theorem State.writeBack_direct_kind (s : State) (l : List Entry) : (s.writeBack (.direct l)).kind = .direct := rfl
@[simp] theorem State.writeBack_direct_countA (s : State) (l : List Entry) : (s.writeBack (.direct l)).countA = BitVec.ofNat 6 l.length := rfl
@[simp] theorem State.writeBack_direct_countB (s : State) (l : List Entry) : (s.writeBack (.direct l)).countB = 0#6 := rfl
@[simp] theorem State.writeBack_direct_bufA (s : State) (l : List Entry) : (s.writeBack (.direct l)).bufA = fillBuffer l s.bufA := rfl
@[simp] theorem State.writeBack_direct_bufB (s : State) (l : List Entry) : (s.writeBack (.direct l)).bufB = s.bufB := rfl
@[simp] theorem State.writeBack_direct_opL (s : State) (l : List Entry) : (s.writeBack (.direct l)).opL = s.opL := rfl
@[simp] theorem State.writeBack_direct_stL (s : State) (l : List Entry) : (s.writeBack (.direct l)).stL = s.stL := rfl
@[simp] theorem State.writeBack_direct_endL (s : State) (l : List Entry) : (s.writeBack (.direct l)).endL = s.endL := rfl
@[simp] theorem State.writeBack_direct_engine (s : State) (l : List Entry) : (s.writeBack (.direct l)).engine = s.engine := rfl
@[simp] theorem State.writeBack_direct_elapsed (s : State) (l : List Entry) : (s.writeBack (.direct l)).elapsed = s.elapsed := rfl
@[simp] theorem State.writeBack_direct_draws (s : State) (l : List Entry) : (s.writeBack (.direct l)).draws = s.draws := rfl
@[simp] theorem State.writeBack_direct_response (s : State) (l : List Entry) : (s.writeBack (.direct l)).response = s.response := rfl
@[simp] theorem State.writeBack_direct_host (s : State) (l : List Entry) : (s.writeBack (.direct l)).host = s.host := rfl
@[simp] theorem State.writeBack_direct_schedule (s : State) (l : List Entry) : (s.writeBack (.direct l)).schedule = s.schedule := rfl

/-! `State.writeBack` of a Split result -/

@[simp] theorem State.writeBack_split_params (s : State) (j k : List Entry) : (s.writeBack (.split j k)).params = s.params := rfl
@[simp] theorem State.writeBack_split_cstate (s : State) (j k : List Entry) : (s.writeBack (.split j k)).cstate = .done := rfl
@[simp] theorem State.writeBack_split_err (s : State) (j k : List Entry) : (s.writeBack (.split j k)).err = .none := rfl
@[simp] theorem State.writeBack_split_ovr (s : State) (j k : List Entry) : (s.writeBack (.split j k)).ovr = s.ovr := rfl
@[simp] theorem State.writeBack_split_stReg (s : State) (j k : List Entry) : (s.writeBack (.split j k)).stReg = s.stReg := rfl
@[simp] theorem State.writeBack_split_endReg (s : State) (j k : List Entry) : (s.writeBack (.split j k)).endReg = s.endReg := rfl
@[simp] theorem State.writeBack_split_kind (s : State) (j k : List Entry) : (s.writeBack (.split j k)).kind = .split := rfl
@[simp] theorem State.writeBack_split_countA (s : State) (j k : List Entry) : (s.writeBack (.split j k)).countA = BitVec.ofNat 6 j.length := rfl
@[simp] theorem State.writeBack_split_countB (s : State) (j k : List Entry) : (s.writeBack (.split j k)).countB = BitVec.ofNat 6 k.length := rfl
@[simp] theorem State.writeBack_split_bufA (s : State) (j k : List Entry) : (s.writeBack (.split j k)).bufA = fillBuffer j s.bufA := rfl
@[simp] theorem State.writeBack_split_bufB (s : State) (j k : List Entry) : (s.writeBack (.split j k)).bufB = fillBuffer k s.bufB := rfl
@[simp] theorem State.writeBack_split_opL (s : State) (j k : List Entry) : (s.writeBack (.split j k)).opL = s.opL := rfl
@[simp] theorem State.writeBack_split_stL (s : State) (j k : List Entry) : (s.writeBack (.split j k)).stL = s.stL := rfl
@[simp] theorem State.writeBack_split_endL (s : State) (j k : List Entry) : (s.writeBack (.split j k)).endL = s.endL := rfl
@[simp] theorem State.writeBack_split_engine (s : State) (j k : List Entry) : (s.writeBack (.split j k)).engine = s.engine := rfl
@[simp] theorem State.writeBack_split_elapsed (s : State) (j k : List Entry) : (s.writeBack (.split j k)).elapsed = s.elapsed := rfl
@[simp] theorem State.writeBack_split_draws (s : State) (j k : List Entry) : (s.writeBack (.split j k)).draws = s.draws := rfl
@[simp] theorem State.writeBack_split_response (s : State) (j k : List Entry) : (s.writeBack (.split j k)).response = s.response := rfl
@[simp] theorem State.writeBack_split_host (s : State) (j k : List Entry) : (s.writeBack (.split j k)).host = s.host := rfl
@[simp] theorem State.writeBack_split_schedule (s : State) (j k : List Entry) : (s.writeBack (.split j k)).schedule = s.schedule := rfl

/-- A failing result is taken by error entry (60_exceptions.md R190). -/
@[simp] theorem State.writeBack_fail (s : State) (c : FailCode) :
    s.writeBack (.fail c) = s.errorEntry c.err := rfl

/-- What write-back never changes, whatever the result (10_state.md R54). -/
theorem State.writeBack_keeps (s : State) (r : CmdResult) :
    (s.writeBack r).params = s.params ∧ (s.writeBack r).ovr = s.ovr ∧
      (s.writeBack r).stReg = s.stReg ∧ (s.writeBack r).endReg = s.endReg ∧
      (s.writeBack r).opL = s.opL ∧ (s.writeBack r).stL = s.stL ∧ (s.writeBack r).endL = s.endL ∧
      (s.writeBack r).draws = s.draws ∧ (s.writeBack r).response = s.response ∧
      (s.writeBack r).host = s.host ∧ (s.writeBack r).schedule = s.schedule := by
  cases r <;> simp

theorem State.busy_eq_true (s : State) : s.busy = true ↔ s.cstate = .busy := by
  simp [State.busy]

theorem State.busy_eq_false (s : State) : s.busy = false ↔ s.cstate ≠ .busy := by
  simp [State.busy]

end Sys2Proof.Machine
end

