-- ==== Sys2Proof/Laws/Tiles.lean ====
section
/-! SUPPORT. What `outerLoop` and `convert` return, said once over natural numbers: a list of maximal
aligned blocks from the top down (40_convert.md R131 to R137). -/

namespace Sys2Proof.Machine

/-- `l` is the list of blocks that 40_convert.md R131 takes from cursor `n - 1` down to cursor
`m - 1`: each is the largest aligned block with its top at the cursor and its bottom at or above
`st`. -/
def TilesTo (st : Nat) : Nat → List Entry → Nat → Prop
  | n, [], m => n = m
  | n, e :: l, m => ∃ k, k ≤ 32 ∧ e = ⟨BitVec.ofNat 32 (n - 2 ^ k), ones k⟩ ∧ 2 ^ k ∣ n ∧
      st + 2 ^ k ≤ n ∧ (∀ j, 2 ^ j ∣ n → st + 2 ^ j ≤ n → j ≤ k) ∧ TilesTo st (n - 2 ^ k) l m

/-- The entry of an outer iteration is the next block. -/
theorem iteration_entry (st c : Word) (hst : st ≤ c) (hg : c = maxWord → st = 0#32) :
    ∃ k, k ≤ 32 ∧ (Work.iteration st c).entry = ⟨BitVec.ofNat 32 (c.toNat + 1 - 2 ^ k), ones k⟩ ∧
      (Work.iteration st c).patt.toNat = c.toNat + 1 - 2 ^ k ∧ 2 ^ k ∣ c.toNat + 1 ∧
      st.toNat + 2 ^ k ≤ c.toNat + 1 ∧
      (∀ j, 2 ^ j ∣ c.toNat + 1 → st.toNat + 2 ^ j ≤ c.toNat + 1 → j ≤ k) := by
  obtain ⟨k, hk, hw, hd, hle, hv, hm⟩ := Work.iteration_spec st c hst hg
  refine ⟨k, hk, ?_, by rw [hw]; exact hv, hd, hle, hm⟩
  rw [hw, Work.entry, Work.stripped_patt, Work.stripped_mask, ← hv, BitVec.ofNat_toNat,
    BitVec.setWidth_eq]

theorem word_sub_one_toNat (x : Word) (h : x ≠ 0#32) : (x - 1#32).toNat = x.toNat - 1 := by
  have : x.toNat ≠ 0 := fun h0 => h (BitVec.eq_of_toNat_eq (by simpa using h0))
  have := x.isLt
  rw [BitVec.toNat_sub]
  simp only [BitVec.toNat_ofNat]
  omega

/-- What the outer loop returns: success with the blocks down to `st`, or failure after `room`
blocks with addresses left. -/
theorem outerLoop_spec (st : Word) (room : Nat) (c : Word) (l : List Entry)
    (hg : c = maxWord → st = 0#32) :
    (∃ l' m, outerLoop st room c l = .ok (l ++ l') ∧ l'.length ≤ room ∧
        TilesTo st.toNat (c.toNat + 1) l' m ∧ m ≤ st.toNat) ∨
    (∃ l' m, outerLoop st room c l = .fail .capacityExceeded ∧ l'.length = room ∧
        TilesTo st.toNat (c.toNat + 1) l' m ∧ st.toNat < m) := by
  induction room generalizing c l with
  | zero =>
    rw [outerLoop]
    by_cases h : c < st
    · exact .inl ⟨[], c.toNat + 1, by simp [h], le_rfl, rfl, by rw [BitVec.lt_def] at h; omega⟩
    · exact .inr ⟨[], c.toNat + 1, by simp [h], rfl, rfl, by rw [BitVec.lt_def] at h; omega⟩
  | succ room ih =>
    rw [outerLoop]
    by_cases h : c < st
    · exact .inl ⟨[], c.toNat + 1, by simp [h], by simp, rfl, by rw [BitVec.lt_def] at h; omega⟩
    · rw [if_neg h]
      have hst : st ≤ c := by rw [BitVec.lt_def] at h; rw [BitVec.le_def]; omega
      obtain ⟨k, hk, he, hv, hd, hle, hm⟩ := iteration_entry st c hst hg
      by_cases h0 : (Work.iteration st c).patt = 0#32
      · rw [if_pos h0]
        have hz : c.toNat + 1 - 2 ^ k = 0 := by rw [← hv, h0]; rfl
        exact .inl ⟨[(Work.iteration st c).entry], 0, rfl, by simp,
          ⟨k, hk, he, hd, hle, hm, hz⟩, Nat.zero_le _⟩
      · rw [if_neg h0]
        have hs := word_sub_one_toNat _ h0
        have hne : (Work.iteration st c).patt.toNat ≠ 0 := fun h1 =>
          h0 (BitVec.eq_of_toNat_eq (by simpa using h1))
        have hlt : (Work.iteration st c).patt.toNat ≤ c.toNat := by
          have := Nat.two_pow_pos k; omega
        have hg' : (Work.iteration st c).patt - 1#32 = maxWord → st = 0#32 := fun h1 => by
          have h2 := c.isLt
          have h3 : (Work.iteration st c).patt.toNat - 1 = 4294967295 := by rw [← hs, h1]; rfl
          omega
        have hn : ((Work.iteration st c).patt - 1#32).toNat + 1 = c.toNat + 1 - 2 ^ k := by omega
        rcases ih _ (l ++ [(Work.iteration st c).entry]) hg' with
          ⟨l', m, h1, h2, h3, h4⟩ | ⟨l', m, h1, h2, h3, h4⟩
        · rw [hn] at h3
          exact .inl ⟨(Work.iteration st c).entry :: l', m, by rw [h1]; simp, by simp; omega,
            ⟨k, hk, he, hd, hle, hm, h3⟩, h4⟩
        · rw [hn] at h3
          exact .inr ⟨(Work.iteration st c).entry :: l', m, h1, by simp; omega,
            ⟨k, hk, he, hd, hle, hm, h3⟩, h4⟩

/-- What `convert` returns (40_convert.md R121): the guard's failure, the whole list of blocks, or
the capacity failure after 32 blocks with addresses left. -/
theorem convert_spec (st fin : Word) :
    (fin = maxWord ∧ st ≠ 0#32 ∧ convert st fin = .fail .rangeTooLarge) ∨
    (∃ l m, (fin = maxWord → st = 0#32) ∧ convert st fin = .ok l ∧ l.length ≤ 32 ∧
        TilesTo st.toNat (fin.toNat + 1) l m ∧ m ≤ st.toNat) ∨
    (∃ l m, (fin = maxWord → st = 0#32) ∧ convert st fin = .fail .capacityExceeded ∧
        l.length = 32 ∧ TilesTo st.toNat (fin.toNat + 1) l m ∧ st.toNat < m) := by
  by_cases h : fin = maxWord ∧ st ≠ 0#32
  · exact .inl ⟨h.1, h.2, by rw [convert, if_pos h]⟩
  · have hg : fin = maxWord → st = 0#32 := fun h1 => by
      by_contra h2
      exact h ⟨h1, h2⟩
    rcases outerLoop_spec st Config.capacity fin [] hg with
      ⟨l, m, h1, h2, h3, h4⟩ | ⟨l, m, h1, h2, h3, h4⟩
    · exact .inr (.inl ⟨l, m, hg, by rw [convert, if_neg h, h1, List.nil_append], h2, h3, h4⟩)
    · exact .inr (.inr ⟨l, m, hg, by rw [convert, if_neg h, h1], h2, h3, h4⟩)

/-- A successful result has at most CAPACITY entries (00_scope.md R18). -/
theorem convert_ok_length (st fin : Word) (l : List Entry) (h : convert st fin = .ok l) :
    l.length ≤ 32 := by
  rcases convert_spec st fin with ⟨-, -, h1⟩ | ⟨l', m, -, h1, h2, -⟩ | ⟨l', m, -, h1, -⟩
  · rw [h1] at h; cases h
  · rw [h1] at h; cases h; exact h2
  · rw [h1] at h; cases h

end Sys2Proof.Machine
end

