-- ==== Sys2Proof/Laws/Ops.lean ====
section
/-! SUPPORT. What the shared operations do, said once: buffers, reads, the command write, bus
accesses and host variables. -/

namespace Sys2Proof.Machine

/-! Buffers -/

theorem overlay_getElem_lt (l old : List Entry) (n : Nat) (h : n < l.length)
    (ho : n < (overlay l old).length) : (overlay l old)[n] = l[n] := by
  induction l generalizing old n with
  | nil => simp at h
  | cons e l ih =>
    cases old with
    | nil => simp [overlay] at ho
    | cons o old =>
      cases n with
      | zero => simp [overlay]
      | succ n =>
        simp only [overlay, List.getElem_cons_succ]
        exact ih old n (by simpa using h) (by simpa [overlay] using ho)

theorem overlay_getElem_ge (l old : List Entry) (n : Nat) (h : l.length ≤ n)
    (ho : n < (overlay l old).length) (ho' : n < old.length) : (overlay l old)[n] = old[n] := by
  induction l generalizing old n with
  | nil => simp [overlay]
  | cons e l ih =>
    cases old with
    | nil => simp [overlay] at ho
    | cons o old =>
      cases n with
      | zero => simp at h
      | succ n =>
        simp only [overlay, List.getElem_cons_succ]
        exact ih old n (by simpa using h) (by simpa [overlay] using ho) (by simpa using ho')

/-- A filled buffer holds the list in its first slots (10_state.md R53). -/
theorem fillBuffer_holds (l : List Entry) (b : Vector Entry 32) :
    bufferHolds (fillBuffer l b) l := by
  intro n hn hl
  have : (fillBuffer l b)[n] = (overlay l b.toList)[n]'(by simp [overlay_length, hn]) := rfl
  rw [this, overlay_getElem_lt l b.toList n hl]

/-- A filled buffer keeps the slots past the list. -/
theorem fillBuffer_keeps (l : List Entry) (b : Vector Entry 32) (n : Nat) (hn : n < 32)
    (hl : l.length ≤ n) : (fillBuffer l b)[n] = b[n] := by
  have : (fillBuffer l b)[n] = (overlay l b.toList)[n]'(by simp [overlay_length, hn]) := rfl
  rw [this, overlay_getElem_ge l b.toList n hl _ (by simpa using hn)]
  simp

theorem count_toNat (l : List Entry) (h : l.length ≤ 32) :
    (BitVec.ofNat 6 l.length).toNat = l.length := by
  rw [BitVec.toNat_ofNat]; exact Nat.mod_eq_of_lt (by omega)

/-- No list of a result is longer than a buffer. -/
def CmdResult.fits : CmdResult → Prop
  | .direct l => l.length ≤ 32
  | .split j k => j.length ≤ 32 ∧ k.length ≤ 32
  | .fail _ => True

/-- Write-back holds the result it writes (10_state.md R53). -/
theorem State.writeBack_holds (s : State) (r : CmdResult) (h : r.fits) :
    (s.writeBack r).holdsResult r := by
  cases r with
  | direct l => exact ⟨rfl, rfl, rfl, h, count_toNat l h, rfl, fillBuffer_holds l s.bufA⟩
  | split j k =>
    exact ⟨rfl, rfl, rfl, h.1, h.2, count_toNat j h.1, count_toNat k h.2,
      fillBuffer_holds j s.bufA, fillBuffer_holds k s.bufB⟩
  | fail c => exact ⟨rfl, rfl, rfl, rfl, rfl⟩

/-- The result of CONVERT, by cases on `convert`. -/
theorem convertCmd_of_ok {st fin : Word} {l : List Entry} (h : convert st fin = .ok l) :
    convertCmd st fin = .direct l := by rw [convertCmd, h]

theorem convertCmd_of_fail {st fin : Word} {c : FailCode} (h : convert st fin = .fail c) :
    convertCmd st fin = .fail c := by rw [convertCmd, h]

/-- What `selectCmd` returns (41_select.md R161), every case once. -/
theorem selectCmd_cases (st fin : Word) :
    (∃ c, convert st fin = .fail c ∧ selectCmd st fin = .fail c) ∨
    (∃ d, convert st fin = .ok d ∧ st = 0#32 ∧ selectCmd st fin = .direct d) ∨
    (∃ d c, convert st fin = .ok d ∧ st ≠ 0#32 ∧ selectCmd st fin = .fail c ∧
      (convert 0#32 (st - 1#32) = .fail c ∨ convert 0#32 fin = .fail c)) ∨
    (∃ d r a, convert st fin = .ok d ∧ st ≠ 0#32 ∧ convert 0#32 (st - 1#32) = .ok r ∧
      convert 0#32 fin = .ok a ∧ selectCmd st fin = chooseRules d r a) := by
  unfold selectCmd
  cases h : convert st fin with
  | fail c => exact .inl ⟨c, rfl, rfl⟩
  | ok d =>
    by_cases h0 : st = 0#32
    · exact .inr (.inl ⟨d, rfl, h0, by simp [h0]⟩)
    · cases h1 : convert 0#32 (st - 1#32) with
      | fail c => exact .inr (.inr (.inl ⟨d, c, rfl, h0, by simp [h0], .inl rfl⟩))
      | ok r =>
        cases h2 : convert 0#32 fin with
        | fail c => exact .inr (.inr (.inl ⟨d, c, rfl, h0, by simp [h0], .inr rfl⟩))
        | ok a => exact .inr (.inr (.inr ⟨d, r, a, rfl, h0, rfl, rfl, by simp [h0]⟩))

/-- Every command's result fits the buffers (00_scope.md R18). -/
theorem computeResult_fits (op : Instr) (st fin : Word) : (computeResult op st fin).fits := by
  cases op with
  | convert =>
    cases h : convert st fin with
    | ok l =>
      rw [computeResult, convertCmd_of_ok h]; exact convert_ok_length st fin l h
    | fail c => rw [computeResult, convertCmd_of_fail h]; trivial
  | select =>
    rw [computeResult]
    rcases selectCmd_cases st fin with
      ⟨c, -, h⟩ | ⟨d, h1, -, h⟩ | ⟨d, c, -, -, h, -⟩ | ⟨d, r, a, h1, -, h2, h3, h⟩
    · rw [h]; trivial
    · rw [h]; exact convert_ok_length _ _ _ h1
    · rw [h]; trivial
    · rw [h, chooseRules]
      split
      · exact ⟨convert_ok_length _ _ _ h2, convert_ok_length _ _ _ h3⟩
      · exact convert_ok_length _ _ _ h1

/-- Completion holds the latched command's result (10_state.md R53). -/
theorem State.complete_holds (s : State) :
    s.complete.holdsResult (computeResult s.opL s.stL s.endL) :=
  s.writeBack_holds _ (computeResult_fits _ _ _)

/-- What completion never changes (10_state.md R54). -/
theorem State.complete_keeps (s : State) :
    s.complete.params = s.params ∧ s.complete.ovr = s.ovr ∧
      s.complete.stReg = s.stReg ∧ s.complete.endReg = s.endReg ∧
      s.complete.opL = s.opL ∧ s.complete.stL = s.stL ∧ s.complete.endL = s.endL ∧
      s.complete.draws = s.draws ∧ s.complete.response = s.response ∧
      s.complete.host = s.host ∧ s.complete.schedule = s.schedule :=
  s.writeBack_keeps _

/-- A state that holds a result is not BUSY. -/
theorem State.holdsResult_not_busy {s : State} {r : CmdResult} (h : s.holdsResult r) :
    s.cstate ≠ .busy := by
  cases r <;> (obtain ⟨h1, -⟩ := h; rw [h1]; simp)

/-! Reads -/

/-- A read answers the register's value and leaves the state, or draws (20_memory.md R75). -/
theorem State.readReg_cases (r : Reg) (s : State) :
    (∃ v, s.regValue r = some v ∧ s.readReg r = (v, s)) ∨
    (s.regValue r = none ∧ s.readReg r = (Config.draw s.draws, { s with draws := s.draws + 1 })) := by
  unfold State.readReg
  cases h : s.regValue r with
  | none => exact .inr ⟨rfl, rfl⟩
  | some v => exact .inl ⟨v, rfl, rfl⟩

/-! The command write -/

theorem ofLanes_toLanes (w : Word) : ofLanes (toLanes w) = w := by
  simp only [toLanes, ofLanes, byteLane]
  apply BitVec.eq_of_getLsbD_eq
  intro n hn
  simp only [BitVec.getLsbD_append, BitVec.getLsbD_extractLsb']
  by_cases h1 : n < 8
  · simp [h1, show n < 24 by omega, show n < 16 by omega]
  · by_cases h2 : n < 16
    · simp [h1, h2, show n < 24 by omega, show n - 8 < 8 by omega, show 8 + (n - 8) = n by omega]
    · by_cases h3 : n < 24
      · simp [h2, h3, show n - 16 < 8 by omega, show 16 + (n - 16) = n by omega]
      · simp [h3, show n - 24 < 8 by omega, show 24 + (n - 24) = n by omega]

theorem decode_toLanes (w : Word) : decode (toLanes w) = decodeWord w := by
  rw [decode, ofLanes_toLanes]; rfl

/-- The decoder on a word, by exact match (30_encoding.md R103 to R105). -/
theorem decodeWord_cases (w : Word) :
    (w = 0x00000001#32 ∧ decodeWord w = .ok .convert) ∨
    (w = 0x00000002#32 ∧ decodeWord w = .ok .select) ∨
    (w ≠ 0x00000001#32 ∧ w ≠ 0x00000002#32 ∧
      decodeWord w = .error (if rsvdField w ≠ 0#28 then .rsvdNonzero else .opIllegal)) := by
  have hm : w &&& 0xFFFFFFFF#32 = w := by
    rw [show (0xFFFFFFFF#32 : Word) = BitVec.allOnes 32 from rfl, BitVec.and_allOnes]
  unfold decodeWord
  simp only [opcodeTable, lookupRow, hm]
  by_cases h1 : w = 0x00000001#32
  · exact .inl ⟨h1, by simp [h1]⟩
  · by_cases h2 : w = 0x00000002#32
    · exact .inr (.inl ⟨h2, by simp [h2]⟩)
    · exact .inr (.inr ⟨h1, h2, by by_cases h3 : rsvdField w = 0#28 <;> simp [h1, h2, h3]⟩)

/-- What a write of a word to CMD does (20_memory.md R76, 30_encoding.md R106), every case once. -/
theorem State.writeCmd_cases (v : Word) (s : State) :
    (s.cstate = .busy ∧ s.writeCmd v = .next s.drop) ∨
    (s.cstate ≠ .busy ∧ v = 0x00000001#32 ∧ s.writeCmd v = .next (s.accept .convert)) ∨
    (s.cstate ≠ .busy ∧ v = 0x00000002#32 ∧ s.params.hasSelect = true ∧
      s.writeCmd v = .next (s.accept .select)) ∨
    (s.cstate ≠ .busy ∧ v ≠ 0x00000001#32 ∧ (v = 0x00000002#32 → s.params.hasSelect = false) ∧
      s.writeCmd v = .next (s.errorEntry .illegalCmd)) := by
  unfold State.writeCmd
  rw [decode_toLanes]
  rcases decodeWord_cases v with ⟨rfl, h⟩ | ⟨rfl, h⟩ | ⟨h1, h2, h⟩ <;> rw [h] <;>
    by_cases hb : s.cstate = .busy
  · exact .inl ⟨hb, by simp [exec, execConvert, State.request, State.busy, hb]⟩
  · exact .inr (.inl ⟨hb, rfl, by simp [exec, execConvert, State.request, State.busy, hb]⟩)
  · refine .inl ⟨hb, ?_⟩
    cases hs : s.params.hasSelect <;>
      simp [exec, execSelect, State.request, State.rejectCmd, State.busy, hb, hs]
  · cases hs : s.params.hasSelect
    · exact .inr (.inr (.inr ⟨hb, by decide, fun _ => rfl,
        by simp [exec, execSelect, State.rejectCmd, State.busy, hb, hs]⟩))
    · exact .inr (.inr (.inl ⟨hb, rfl, rfl,
        by simp [exec, execSelect, State.request, State.busy, hb, hs]⟩))
  · exact .inl ⟨hb, by simp [State.rejectCmd, State.busy, hb]⟩
  · exact .inr (.inr (.inr ⟨hb, h1, fun h' => absurd h' h2,
      by simp [State.rejectCmd, State.busy, hb]⟩))

/-- What `exec` does: it always answers a next state, by drop, acceptance or error entry. -/
theorem exec_cases (i : Instr) (s : State) :
    (s.cstate = .busy ∧ exec i s = .next s.drop) ∨
    (s.cstate ≠ .busy ∧ i.wf s.params = true ∧ exec i s = .next (s.accept i)) ∨
    (s.cstate ≠ .busy ∧ i.wf s.params = false ∧ exec i s = .next (s.errorEntry .illegalCmd)) := by
  by_cases hb : s.cstate = .busy <;> cases i <;> cases hs : s.params.hasSelect <;>
    simp [exec, execConvert, execSelect, State.request, State.rejectCmd, State.busy, hb, hs,
      Instr.wf]

/-- A register write always answers a next state. -/
theorem State.writeReg_cases (r : Reg) (v : Word) (s : State) :
    (r = .cmd ∧ s.writeReg r v = s.writeCmd v) ∨
    (r ≠ .cmd ∧ s.writeReg r v = .next (s.storeReg r v)) := by
  cases r <;> simp [State.writeReg]

/-- What a bus access does, every case once (20_memory.md R73 to R77). -/
theorem State.busAccess_cases (t : Txn) (s : State) :
    (Txn.reg t = none ∧ s.busAccess t = .next { s with response := some .busError }) ∨
    (∃ r v, Txn.reg t = some r ∧ t.dir = .read ∧ s.regValue r = some v ∧
      s.busAccess t = .next { s with response := some (.data v) }) ∨
    (∃ r, Txn.reg t = some r ∧ t.dir = .read ∧ s.regValue r = none ∧
      s.busAccess t = .next { s with
        response := some (.data (Config.draw s.draws)), draws := s.draws + 1 }) ∨
    (∃ r, Txn.reg t = some r ∧ t.dir = .write ∧
      s.busAccess t = State.writeReg r t.data { s with response := some .written }) := by
  unfold State.busAccess
  cases h : Txn.reg t with
  | none => exact .inl ⟨rfl, rfl⟩
  | some r =>
    cases hd : t.dir with
    | write => exact .inr (.inr (.inr ⟨r, rfl, rfl, rfl⟩))
    | read =>
      rcases State.readReg_cases r s with ⟨v, h1, h2⟩ | ⟨h1, h2⟩
      · exact .inr (.inl ⟨r, v, rfl, rfl, h1, by simp only [h2]⟩)
      · exact .inr (.inr (.inl ⟨r, rfl, rfl, h1, by simp only [h2]⟩))

/-! Host variables -/

theorem readVar_writeVar_self (v : Nat) (x : Word) (l : List (Nat × Word)) :
    readVar v (writeVar v x l) = x := by
  induction l with
  | nil => simp [writeVar, readVar]
  | cons a l ih =>
    rw [writeVar]
    split
    · simp [readVar]
    · split
      · simp [readVar]
      · rename_i h1 h2
        rw [readVar, if_neg (fun h => h2 h.symm), ih]

theorem readVar_writeVar_ne (v w : Nat) (x : Word) (l : List (Nat × Word)) (h : w ≠ v) :
    readVar w (writeVar v x l) = readVar w l := by
  induction l with
  | nil => simp [writeVar, readVar, h.symm]
  | cons a l ih =>
    rw [writeVar]
    split
    · simp [readVar, h.symm]
    · split
      · rename_i h1 h2
        subst h2
        simp [readVar, h.symm]
      · simp only [readVar, ih]

theorem varsSorted_writeVar (v : Nat) (x : Word) (l : List (Nat × Word)) (h : varsSorted l) :
    varsSorted (writeVar v x l) := by
  induction l with
  | nil => trivial
  | cons a l ih =>
    rw [writeVar]
    split
    · exact ⟨by assumption, h⟩
    · split
      · rename_i h1 h2
        subst h2
        cases l with
        | nil => trivial
        | cons b l => exact h
      · rename_i h1 h2
        cases l with
        | nil => exact ⟨by simp; omega, trivial⟩
        | cons b l =>
          have ih := ih h.2
          rw [writeVar] at ih ⊢
          split
          · rename_i h3
            rw [if_pos h3] at ih
            exact ⟨by simp; omega, ih⟩
          · rename_i h3
            rw [if_neg h3] at ih
            split
            · rename_i h4
              rw [if_pos h4] at ih
              exact ⟨by simp; omega, ih⟩
            · rename_i h4
              rw [if_neg h4] at ih
              exact ⟨h.1, ih⟩

end Sys2Proof.Machine
end

