-- ==== Sys2Proof/Laws/PerInstr.lean ====
section
/-! SUPPORT. Laws of every instruction as syntax, one lemma per constructor. -/

namespace Sys2Proof.Laws.OpField

/-- 30_encoding.md R102: `OP` of the command word is the instruction's, `RSVD` is 0, the word is a
row of the opcode table, and the first byte on the bus carries `OP`. -/
def Statement (i : Instr) : Prop :=
  opField (encode i) = i.op ∧ rsvdField (encode i) = 0#28 ∧
    ⟨encode i, 0xFFFFFFFF#32, i⟩ ∈ opcodeTable ∧ (encodeBytes i).head? = some (0#4 ++ i.op)

theorem convert : Statement .convert := by
  unfold Statement; decide

theorem select : Statement .select := by
  unfold Statement; decide

end Sys2Proof.Laws.OpField
end

