-- ==== Sys2Proof/Laws/Step.lean ====
section
/-! SUPPORT. What a turn and a step can do, said once: the inversion lemmas that invariants and frames
are derived from. -/

namespace Sys2Proof.Machine

/-- The effect of a bus access on the block, every case once, with the answer and the draw counter
apart: `s1` is the state with the answer recorded. -/
theorem State.busAccess_effect (t : Txn) (s : State) :
    ∃ resp n u, s.busAccess t = .next u ∧
      (u = { s with response := resp, draws := n } ∨
      (s.cstate = .busy ∧ t.dir = .write ∧ Txn.reg t = some .cmd ∧
        u = State.drop { s with response := resp, draws := n }) ∨
      (∃ i, s.cstate ≠ .busy ∧ t.dir = .write ∧ Txn.reg t = some .cmd ∧ i.wf s.params = true ∧
        u = State.accept i { s with response := resp, draws := n }) ∨
      (s.cstate ≠ .busy ∧ t.dir = .write ∧ Txn.reg t = some .cmd ∧
        u = State.errorEntry .illegalCmd { s with response := resp, draws := n }) ∨
      (∃ r, r ≠ .cmd ∧ t.dir = .write ∧ Txn.reg t = some r ∧
        u = State.storeReg r t.data { s with response := resp, draws := n })) := by
  rcases State.busAccess_cases t s with ⟨-, h⟩ | ⟨r, v, -, -, -, h⟩ | ⟨r, -, -, -, h⟩ |
    ⟨r, hr, hd, h⟩
  · exact ⟨_, s.draws, _, h, .inl rfl⟩
  · exact ⟨_, s.draws, _, h, .inl rfl⟩
  · exact ⟨_, s.draws + 1, _, h, .inl rfl⟩
  · rcases State.writeReg_cases r t.data { s with response := some .written } with
      ⟨rfl, h2⟩ | ⟨h1, h2⟩
    · rcases State.writeCmd_cases t.data { s with response := some .written } with
        ⟨hb, h3⟩ | ⟨hb, -, h3⟩ | ⟨hb, -, hs, h3⟩ | ⟨hb, -, -, h3⟩
      · exact ⟨some .written, s.draws, _, by rw [h, h2, h3], .inr (.inl ⟨hb, hd, hr, rfl⟩)⟩
      · exact ⟨some .written, s.draws, _, by rw [h, h2, h3],
          .inr (.inr (.inl ⟨.convert, hb, hd, hr, rfl, rfl⟩))⟩
      · exact ⟨some .written, s.draws, _, by rw [h, h2, h3],
          .inr (.inr (.inl ⟨.select, hb, hd, hr, hs, rfl⟩))⟩
      · exact ⟨some .written, s.draws, _, by rw [h, h2, h3],
          .inr (.inr (.inr (.inl ⟨hb, hd, hr, rfl⟩)))⟩
    · exact ⟨some .written, s.draws, _, by rw [h, h2], .inr (.inr (.inr (.inr ⟨r, h1, hd, hr, rfl⟩)))⟩

/-- The host's side of an access only moves the host on, or faults. -/
theorem State.hostAnswer_cases (dst : Option Nat) (s : State) :
    (s.hostAnswer dst = .next s.hostNext) ∨ (∃ v x, s.hostAnswer dst = .next (s.hostSet v x)) ∨
      s.hostAnswer dst = .fault .busError := by
  unfold State.hostAnswer
  split
  · exact .inr (.inl ⟨_, _, rfl⟩)
  · exact .inr (.inr rfl)
  · exact .inl rfl

/-- Two states that differ in the host alone, its program apart. -/
def State.sameButHost (s u : State) : Prop :=
  u = { s with host := u.host } ∧ u.host.prog = s.host.prog ∧
    (varsSorted s.host.vars → varsSorted u.host.vars)

theorem State.sameButHost_hostNext (s : State) : s.sameButHost s.hostNext :=
  ⟨rfl, rfl, id⟩

theorem State.sameButHost_hostSet (s : State) (v : Nat) (x : Word) : s.sameButHost (s.hostSet v x) :=
  ⟨rfl, rfl, varsSorted_writeVar v x _⟩

/-- A host access that answers a next state is a bus access followed by a move of the host. -/
theorem State.hostAccess_next {t : Txn} {dst : Option Nat} {s u : State}
    (h : s.hostAccess t dst = .next u) :
    ∃ w, s.busAccess t = .next w ∧ w.sameButHost u := by
  unfold State.hostAccess at h
  obtain ⟨_, _, w, hw, -⟩ := State.busAccess_effect t s
  rw [hw] at h
  refine ⟨w, hw, ?_⟩
  rcases State.hostAnswer_cases dst w with h1 | ⟨v, x, h1⟩ | h1 <;> simp only [h1] at h
  · cases h; exact w.sameButHost_hostNext
  · cases h; exact w.sameButHost_hostSet v x
  · cases h

/-- A host line that answers a next state makes its transaction and moves the host, or only moves
the host (30_encoding.md R108). -/
theorem State.hostLine_next {x : HostLine} {s u : State} (h : s.hostLine x = .next u) :
    (∃ t w, hostLineTxn x = some t ∧ s.busAccess t = .next w ∧ w.sameButHost u) ∨
      (hostLineTxn x = none ∧ s.sameButHost u) := by
  have goto : ∀ l, s.hostGoto l = .next u → s.sameButHost u := by
    intro l hl
    unfold State.hostGoto at hl
    split at hl
    · cases hl; exact ⟨rfl, rfl, id⟩
    · cases hl
  cases x with
  | wr r imm =>
    obtain ⟨w, h1, h2⟩ := State.hostAccess_next h
    exact .inl ⟨_, w, rfl, h1, h2⟩
  | rd r v =>
    obtain ⟨w, h1, h2⟩ := State.hostAccess_next h
    exact .inl ⟨_, w, rfl, h1, h2⟩
  | wrRaw off imm =>
    obtain ⟨w, h1, h2⟩ := State.hostAccess_next h
    exact .inl ⟨_, w, rfl, h1, h2⟩
  | rdRaw off v =>
    obtain ⟨w, h1, h2⟩ := State.hostAccess_next h
    exact .inl ⟨_, w, rfl, h1, h2⟩
  | label l =>
    cases h; exact .inr ⟨rfl, s.sameButHost_hostNext⟩
  | beq v imm l =>
    simp only [State.hostLine] at h
    split at h
    · exact .inr ⟨rfl, goto l h⟩
    · cases h; exact .inr ⟨rfl, s.sameButHost_hostNext⟩
  | bne v imm l =>
    simp only [State.hostLine] at h
    split at h
    · exact .inr ⟨rfl, goto l h⟩
    · cases h; exact .inr ⟨rfl, s.sameButHost_hostNext⟩
  | and d m imm =>
    cases h; exact .inr ⟨rfl, s.sameButHost_hostSet d _⟩

/-- What a turn that answers a next state does, every case once. -/
theorem State.runTurn_next {t : Turn} {s u : State} (h : s.runTurn t = .next u) :
    (∃ x w, s.turnTxn t = some x ∧ s.busAccess x = .next w ∧ w.sameButHost u) ∨
    (s.turnTxn t = none ∧ t = .host ∧ s.sameButHost u) ∨
    (s.turnTxn t = none ∧ t = .cycle ∧ u = s.cycleTurn) ∨
    (s.turnTxn t = none ∧ t = .complete ∧ u = s.completionTurn) ∨
    (s.turnTxn t = none ∧ t = .reset ∧ u = s.applyReset) := by
  cases t with
  | host =>
    simp only [State.runTurn, State.hostTurn] at h
    cases hp : s.host.prog[s.host.pc]? with
    | none =>
      rw [hp] at h; cases h
      exact .inr (.inl ⟨by simp [State.turnTxn, hp], rfl, rfl, rfl, id⟩)
    | some x =>
      rw [hp] at h
      rcases State.hostLine_next h with ⟨t, w, h1, h2, h3⟩ | ⟨h1, h2⟩
      · exact .inl ⟨t, w, by simp [State.turnTxn, hp, h1], h2, h3⟩
      · exact .inr (.inl ⟨by simp [State.turnTxn, hp, h1], rfl, h2⟩)
  | bus x => exact .inl ⟨x, u, rfl, h, rfl, rfl, id⟩
  | access a =>
    simp only [State.runTurn, State.addrAccess] at h
    cases ha : Access.toTxn s.params a with
    | none => rw [ha] at h; cases h
    | some x => rw [ha] at h; exact .inl ⟨x, u, ha, h, rfl, rfl, id⟩
  | cycle => cases h; exact .inr (.inr (.inl ⟨rfl, rfl, rfl⟩))
  | complete => cases h; exact .inr (.inr (.inr (.inl ⟨rfl, rfl, rfl⟩)))
  | reset => cases h; exact .inr (.inr (.inr (.inr ⟨rfl, rfl, rfl⟩)))
  | resetDuring x => cases h

/-- A step is its next turn, on the state without that turn. -/
theorem step_eq (s : State) :
    step s = State.runTurn s.nextTurn { s with schedule := s.schedule.tail } := by
  unfold step State.nextTurn
  cases h : s.schedule with
  | nil =>
    have : { s with schedule := [] } = s := by rw [← h]
    simp only [List.tail_nil, this]
  | cons t rest => rfl

/-- The transaction of a turn does not depend on the schedule. -/
theorem State.turnTxn_schedule (s : State) (l : List Turn) (t : Turn) :
    State.turnTxn { s with schedule := l } t = s.turnTxn t := by
  cases t <;> rfl

/-- What a step that answers a next state does, every case once; `s0` is the state without the turn
taken. -/
theorem step_next {s u : State} (h : step s = .next u) :
    ∃ s0, s0 = { s with schedule := s.schedule.tail } ∧
    ((∃ x w, s.turnTxn s.nextTurn = some x ∧ s0.busAccess x = .next w ∧ w.sameButHost u) ∨
    (s.turnTxn s.nextTurn = none ∧ s.nextTurn = .host ∧ s0.sameButHost u) ∨
    (s.nextTurn = .cycle ∧ u = s0.cycleTurn) ∨
    (s.nextTurn = .complete ∧ u = s0.completionTurn) ∨
    (s.nextTurn = .reset ∧ u = s0.applyReset)) := by
  rw [step_eq] at h
  refine ⟨_, rfl, ?_⟩
  rcases State.runTurn_next h with h1 | h1 | ⟨-, h1⟩ | ⟨-, h1⟩ | ⟨-, h1⟩
  · rw [State.turnTxn_schedule] at h1; exact .inl h1
  · rw [State.turnTxn_schedule] at h1; exact .inr (.inl h1)
  · exact .inr (.inr (.inl h1))
  · exact .inr (.inr (.inr (.inl h1)))
  · exact .inr (.inr (.inr (.inr h1)))

/-- An engine cycle: idle, one micro-step within the bound, or completion in the last cycle that
LAT_MAX allows (70_reset_and_hazards.md R222). -/
theorem State.cycleTurn_cases (s : State) :
    (s.cstate ≠ .busy ∧ s.cycleTurn = s) ∨
    (s.cstate = .busy ∧ s.elapsed + 1 < s.params.latMax ∧
      s.cycleTurn = { s with
        engine := s.engine.tick s.opL s.stL s.endL, elapsed := s.elapsed + 1 }) ∨
    (s.cstate = .busy ∧ s.params.latMax ≤ s.elapsed + 1 ∧ s.cycleTurn = s.complete) := by
  by_cases hb : s.cstate = .busy
  · by_cases hl : s.elapsed + 1 < s.params.latMax
    · exact .inr (.inl ⟨hb, hl, by simp [State.cycleTurn, State.busy, hb, hl]⟩)
    · exact .inr (.inr ⟨hb, by omega, by simp [State.cycleTurn, State.busy, hb, hl]⟩)
  · exact .inl ⟨hb, by simp [State.cycleTurn, State.busy, hb]⟩

theorem State.completionTurn_cases (s : State) :
    (s.cstate ≠ .busy ∧ s.completionTurn = s) ∨
    (s.cstate = .busy ∧ s.completionTurn = s.complete) := by
  by_cases hb : s.cstate = .busy
  · exact .inr ⟨hb, by simp [State.completionTurn, State.busy, hb]⟩
  · exact .inl ⟨hb, by simp [State.completionTurn, State.busy, hb]⟩

/-- What a write to a register other than CMD never changes (20_memory.md R76). -/
theorem State.storeReg_keeps (r : Reg) (v : Word) (s : State) :
    State.storeReg r v s = { s with
      stReg := (State.storeReg r v s).stReg, endReg := (State.storeReg r v s).endReg
      ovr := (State.storeReg r v s).ovr } := by
  cases r <;> rfl

end Sys2Proof.Machine
end

