-- ==== Sys2Proof/Tests/Slice0.lean ====
section
/-! SUPPORT. Tests: the checks of WellFormed refuse, words written out from the spec decode, vectors of
95_test_vectors.md, and a witness for the hypotheses of each statement. -/

namespace Sys2Proof.Machine

/-! ### Small states -/

/-- A block at `R2M_BASE = 0x1000` with `LAT_MAX = 10`, after reset, with its operands written. -/
def tIdle (st fin : Word) : State :=
  { State.reset with params := ⟨true, 4, 9⟩, stReg := st, endReg := fin }

/-- The same block running a command. -/
def tBusy (i : Instr) (st fin : Word) : State := (tIdle st fin).accept i

/-- The same block after the command's completion. -/
def tDone (i : Instr) (st fin : Word) : State := (tBusy i st fin).complete

/-- With turns to come. -/
def tWith (l : List Turn) (s : State) : State := { s with schedule := l }

/-- With a host program. -/
def tProg (p : List HostLine) (s : State) : State := { s with host := ⟨p, 0, []⟩ }

/-- Without SELECT. -/
def tNoSelect (s : State) : State := { s with params := ⟨false, 4, 9⟩ }

/-- The state a step or an access answers. -/
def tNext (o : Host.Outcome State Fault Refusal) : Option State :=
  match o with
  | .next s => some s
  | .fault _ => none
  | .refused _ => none

/-- The block's answer to a read of four bytes. -/
def tRead (s : State) (off : BitVec 10) : Option BusResponse :=
  (tNext (s.busAccess ⟨.read, off, 4, 0#32⟩)).bind State.response

/-- A write of four bytes. -/
def tWrite (off : BitVec 10) (v : Word) : Txn := ⟨.write, off, 4, v⟩

/-! ### WellFormed refuses -/

theorem test_wf_select_absent : Instr.wf ⟨false, 0, 0⟩ .select = false := by decide
theorem test_wf_size : Txn.wf ⟨.read, 0x004#10, 1, 0#32⟩ = false := by decide
theorem test_wf_aligned : Txn.wf ⟨.read, 0x006#10, 4, 0#32⟩ = false := by decide
theorem test_wf_reserved_low : Txn.wf ⟨.write, 0x020#10, 4, 0#32⟩ = false := by decide
theorem test_wf_reserved_high : Txn.wf ⟨.write, 0x300#10, 4, 0#32⟩ = false := by decide
theorem test_wf_legal : Txn.wf ⟨.read, 0x2FC#10, 4, 0#32⟩ = true := by decide
theorem test_wf_label_twice : hostProgramWf [.label 1, .label 1] = false := by decide
theorem test_wf_label_missing : hostProgramWf [.label 1, .beq 0 1#32 2] = false := by decide
theorem test_wf_poll : hostProgramWf (convertLines 5#32 10#32 0 0 1) = true := by decide

/-! ### Decoding, the words written out bit by bit from 30_encoding.md R102 -/

theorem test_decode_convert :
    decodeWord 0b00000000000000000000000000000001#32 = .ok .convert := by decide
theorem test_decode_select :
    decodeWord 0b00000000000000000000000000000010#32 = .ok .select := by decide
theorem test_decode_rsvd :
    decodeWord 0b00000000000000000000000000010001#32 = .error .rsvdNonzero := by decide
theorem test_decode_length : decode [1#8, 0#8, 0#8] = .error .wrongLength := by decide
theorem test_table_word : decodeTableWord 32 2 = some .select := by decide
/-- Byte lanes of 20_memory.md R72, lane 0 first. -/
theorem test_lanes : toLanes 0xDEADBEEF#32 = [0xEF#8, 0xBE#8, 0xAD#8, 0xDE#8] := by decide

/-! ### 95_test_vectors.md -/

/-- V5.1. -/
theorem test_convert_5_10 : convert 0x5#32 0xA#32 = .ok [⟨0xA#32, 0xFFFFFFFF#32⟩,
    ⟨0x8#32, 0xFFFFFFFE#32⟩, ⟨0x6#32, 0xFFFFFFFE#32⟩, ⟨0x5#32, 0xFFFFFFFF#32⟩] := by
  decide +kernel
/-- V6.2. -/
theorem test_select_split : selectCmd 0x1#32 0x7#32 =
    .split [⟨0x0#32, 0xFFFFFFFF#32⟩] [⟨0x0#32, 0xFFFFFFF8#32⟩] := by decide +kernel
/-- V6.4, the tie. -/
theorem test_select_tie : selectCmd 0x3#32 0xF#32 = .direct [⟨0x8#32, 0xFFFFFFF8#32⟩,
    ⟨0x4#32, 0xFFFFFFFC#32⟩, ⟨0x3#32, 0xFFFFFFFF#32⟩] := by decide +kernel
/-- V8.13, and STATUS after V5.1. -/
theorem test_slots_after_convert :
    tRead (tDone .convert 5#32 10#32) 0x004#10 = some (.data 0x02#32) ∧
    tRead (tDone .convert 5#32 10#32) 0x118#10 = some (.data 0x5#32) ∧
    tRead (tDone .convert 5#32 10#32) 0x11C#10 = some (.data 0xFFFFFFFF#32) := by decide +kernel
/-- V7.13 and V8.11: a dropped word sets OVR, and STATUS bit 8 clears it. -/
theorem test_drop_and_clear :
    (tNext ((tBusy .convert 5#32 10#32).busAccess (tWrite 0x000#10 1#32))).map State.statusWord =
      some 0x101#32 ∧
    (tNext ((tBusy .convert 5#32 10#32).drop.busAccess (tWrite 0x004#10 0x100#32))).map
      State.statusWord = some 0x001#32 := by decide +kernel
/-- STATUS after V5.24 (code 1), V5.27 (code 2) and V7.4 (code 3). -/
theorem test_status_of_errors :
    tRead (tDone .convert 5#32 0xFFFFFFFF#32) 0x004#10 = some (.data 0x13#32) ∧
    tRead (tDone .convert 1#32 0xFFFFFFFE#32) 0x004#10 = some (.data 0x23#32) ∧
    (tNext ((tIdle 0 0).busAccess (tWrite 0x000#10 0#32))).bind (tRead · 0x004#10) =
      some (.data 0x33#32) := by decide +kernel
/-- V8.25, V8.24: BusError on a narrow and on a misaligned access. -/
theorem test_bus_errors :
    (tNext ((tIdle 0 0).busAccess ⟨.read, 0x004#10, 1, 0#32⟩)).bind State.response =
      some .busError ∧ tRead (tIdle 0 0) 0x006#10 = some .busError := by decide +kernel

/-! ### Witnesses: the hypotheses of the statements can be met, clause by clause -/

theorem witness_OnlyTheEncodingDecodes :
    decode [1#8, 0#8, 0#8, 0#8] = .ok .convert ∧ decode [2#8, 0#8, 0#8, 0#8] = .ok .select := by
  decide
theorem witness_DecoderIsExactMatch :
    decodeWord 0x0000000F#32 = .error .opIllegal ∧ decodeWord 0x00000010#32 = .error .rsvdNonzero ∧
      decodeWord 0#32 = .error .opIllegal ∧ decodeWord 0xFFFFFFFF#32 = .error .rsvdNonzero := by
  decide
theorem witness_OffsetMapAgrees :
    decodeOffset 0x01C#10 = some .caps ∧ decodeOffset 0x020#10 = none ∧
      decodeOffset 0x0FC#10 = none ∧ decodeOffset 0x1FC#10 = some (.aMask 31) ∧
      decodeOffset 0x2FC#10 = some (.bMask 31) ∧ decodeOffset 0x300#10 = none ∧
      Txn.wf (tWrite 0x200#10 0#32) = true := by decide
theorem witness_ByteLanesAreLittleEndian : 7 < 8 ∧ 3 < (toLanes 0x80000000#32).length ∧
    (0x80000000#32).getLsbD (8 * 3 + 7) = true := by decide
theorem witness_IllegalAccessIsBusErrorWithoutEffect :
    (∀ n ∈ [0, 1, 2, 3, 5, 8], n ≠ 4) ∧ (0x2FD#10).toNat % 4 ≠ 0 ∧
    (∀ off ∈ [0x020#10, 0x0FF#10], 0x020 ≤ off.toNat ∧ off.toNat ≤ 0x0FF) ∧
    (∀ off ∈ [0x300#10, 0x3FF#10], 0x300 ≤ off.toNat) ∧
    (∀ off ∈ [0x01C#10, 0x100#10, 0x2FC#10], off.toNat % 4 = 0 ∧
      ¬ ((0x020 ≤ off.toNat ∧ off.toNat ≤ 0x0FF) ∨ 0x300 ≤ off.toNat)) := by decide
theorem witness_AccessInWindowIsItsTransaction :
    Access.toTxn ⟨true, 4, 9⟩ ⟨.write, 0x1000, 4, toLanes 1#32⟩ = some (tWrite 0x000#10 1#32) ∧
    Access.toTxn ⟨true, 4, 9⟩ ⟨.write, 0x13FF, 4, toLanes 1#32⟩ = some (tWrite 0x3FF#10 1#32) := by
  decide
theorem witness_AccessOutsideWindowIsRefused :
    0xFFF < (tIdle 0 0).params.base ∧ (tIdle 0 0).params.base + 0x3FF < 0x1400 := by decide
theorem witness_ResultRegistersReadOrDraw :
    (tDone .select 1#32 7#32).cstate ≠ .busy ∧ (tDone .select 1#32 7#32).kind = .split ∧
      (tBusy .select 1#32 7#32).cstate = .busy := by decide +kernel
theorem witness_SlotsReadOrDraw :
    ((tDone .convert 5#32 10#32).cstate = .done ∧ 3 < (tDone .convert 5#32 10#32).countA.toNat) ∧
    ¬ ((tDone .convert 5#32 10#32).cstate = .done ∧
      4 < (tDone .convert 5#32 10#32).countA.toNat) ∧
    ((tDone .select 1#32 7#32).cstate = .done ∧ 0 < (tDone .select 1#32 7#32).countB.toNat) ∧
    ¬ ((tDone .convert 5#32 10#32).cstate = .done ∧
      0 < (tDone .convert 5#32 10#32).countB.toNat) := by decide +kernel
theorem witness_ReadOnlyRegistersIgnoreWrites :
    ∀ off ∈ [0x010#10, 0x01C#10, 0x100#10, 0x2FC#10], off.toNat % 4 = 0 ∧
      ((0x010 ≤ off.toNat ∧ off.toNat ≤ 0x01C) ∨ (0x100 ≤ off.toNat ∧ off.toNat ≤ 0x2FC)) := by
  decide
theorem witness_CommandWriteWhenNotBusy :
    (tIdle 5#32 10#32).cstate ≠ .busy ∧ (tDone .convert 5#32 10#32).cstate ≠ .busy ∧
      (tIdle 5#32 10#32).params.hasSelect = true ∧
      (tNoSelect (tIdle 5#32 10#32)).params.hasSelect = false ∧
      ¬ (3#32 = 0x00000001#32 ∨ (3#32 = 0x00000002#32 ∧
        (tIdle 5#32 10#32).params.hasSelect = true)) := by decide +kernel
theorem witness_CommandWriteWhileBusyIsDropped : (tBusy .convert 5#32 10#32).cstate = .busy := by
  decide
theorem witness_CommandDecisionReadsOnlyStateAndPresence :
    tNext ((tBusy .convert 5#32 10#32).writeCmd 3#32) = some (tBusy .convert 5#32 10#32).drop ∧
    tNext ((tNoSelect (tIdle 5#32 10#32)).writeCmd 2#32) =
      some ((tNoSelect (tIdle 5#32 10#32)).errorEntry .illegalCmd) := ⟨rfl, rfl⟩
/-- V5.27 (R140), the 33rd append. -/
theorem witness_convert_fails : convert 0x1#32 0xFFFFFFFE#32 = .fail .capacityExceeded := by
  decide +kernel
theorem witness_ConvertRunsToItsResult :
    (tIdle 5#32 10#32).cstate ≠ .busy ∧ (∃ l, convert 5#32 10#32 = .ok l) ∧
      ∃ c, convert 5#32 0xFFFFFFFF#32 = .fail c :=
  ⟨by decide, ⟨_, test_convert_5_10⟩, ⟨.rangeTooLarge, by decide +kernel⟩⟩
theorem witness_SelectRunsToItsResult :
    (tIdle 1#32 7#32).cstate ≠ .busy ∧ (tIdle 1#32 7#32).params.hasSelect = true ∧
      (∃ c, convert 1#32 0xFFFFFFFE#32 = .fail c) ∧ (∃ d, convert 0#32 0xA#32 = .ok d) ∧
      (∃ d, convert 1#32 0x7#32 = .ok d ∧ 1 + 1 < d.length) ∧
      ∃ d, convert 3#32 0xF#32 = .ok d ∧ ¬ 2 + 1 < d.length :=
  ⟨by decide, rfl, ⟨_, witness_convert_fails⟩, ⟨[⟨0xA#32, 0xFFFFFFFF#32⟩, ⟨0x8#32, 0xFFFFFFFE#32⟩,
    ⟨0x0#32, 0xFFFFFFF8#32⟩], by decide +kernel⟩, ⟨[⟨4#32, 0xFFFFFFFC#32⟩, ⟨2#32, 0xFFFFFFFE#32⟩,
    ⟨1#32, 0xFFFFFFFF#32⟩], by decide +kernel⟩, ⟨[⟨8#32, 0xFFFFFFF8#32⟩, ⟨4#32, 0xFFFFFFFC#32⟩,
    ⟨3#32, 0xFFFFFFFF#32⟩], by decide +kernel⟩⟩
theorem witness_AbsentSelectIsIllegal :
    (tNoSelect (tIdle 1#32 7#32)).cstate ≠ .busy ∧
      (tNoSelect (tIdle 1#32 7#32)).params.hasSelect = false := by decide
theorem witness_CommandFrames :
    (tNext (exec .convert (tBusy .convert 5#32 10#32))).isSome ∧
      (tBusy .convert 5#32 10#32).cstate = .busy ∧
      (tNext (exec .select (tIdle 5#32 10#32))).isSome ∧
      (tIdle 5#32 10#32).cstate ≠ .busy ∧ Instr.wf (tIdle 5#32 10#32).params .select = true ∧
      (tNext (exec .select (tNoSelect (tIdle 5#32 10#32)))).isSome ∧
      Instr.wf (tNoSelect (tIdle 5#32 10#32)).params .select = false := by decide
theorem witness_CompletionFrame :
    (tDone .convert 5#32 10#32).countA.toNat ≤ 4 ∧ (tDone .convert 5#32 10#32).countB.toNat ≤ 0 := by
  decide +kernel
theorem witness_StepRunsTheDecodedCommand :
    (tWith [.bus (tWrite 0x000#10 2#32), .complete] (tIdle 5#32 10#32)).schedule =
      .bus ⟨.write, 0x000#10, 4, 2#32⟩ :: [.complete] ∧ decode (toLanes 2#32) = .ok .select := by
  decide
theorem witness_HostLineRunsTheDecodedCommand :
    (tWith [.host] (tProg [.wr .cmd 1#32] (tIdle 5#32 10#32))).schedule = .host :: [] ∧
    (tProg [.wr .cmd 1#32] (tIdle 5#32 10#32)).host.prog[0]? = some (.wr .cmd 1#32) ∧
    decode (toLanes 1#32) = .ok .convert ∧ decode (toLanes 3#32) = .error .opIllegal ∧
    (tProg [.wr .cmd 3#32] (tBusy .convert 5#32 10#32)).cstate = .busy ∧
    (tProg [.wr .cmd 3#32] (tIdle 5#32 10#32)).cstate ≠ .busy ∧
    (tProg [.wrRaw 0x2FC#10 0#32] (tIdle 5#32 10#32)).host.prog[0]? =
      some (.wrRaw (Reg.bMask 31).offset 0#32) ∧
    ((tProg [.wr .st 9#32] (tIdle 5#32 10#32)).schedule = [] ∧
      (tProg [.wr .st 9#32] (tIdle 5#32 10#32)).cstate ≠ .busy) ∧
    Reg.bMask 31 ∉ [Reg.cmd, Reg.status, Reg.st, Reg.fin] := by decide
/-- A host line that writes ST, by name and raw, and one that writes END. -/
theorem test_host_writes :
    (tNext (step (tProg [.wr .st 9#32] (tIdle 5#32 10#32)))).map State.stReg = some 9#32 ∧
    (tNext (step (tProg [.wrRaw 0x008#10 9#32] (tIdle 5#32 10#32)))).map State.stReg = some 9#32 ∧
    (tNext (step (tProg [.wr .fin 9#32] (tIdle 5#32 10#32)))).map State.endReg = some 9#32 := by
  decide +kernel
theorem witness_StripLoopClosedForm :
    ((∀ n < 0, (6#32).getLsbD n = true) ∧ (6#32).getLsbD 0 = false) ∧
    ((∀ n < 3, (7#32).getLsbD n = true) ∧ (7#32).getLsbD 3 = false) ∧
    (∀ n < 32, (0xFFFFFFFF#32).getLsbD n = true) := by decide
theorem witness_IterationTakesTheLargestBlock :
    (5#32 ≤ 7#32 ∧ 7#32 ≠ maxWord) ∧ (0#32 ≤ maxWord) := by decide
theorem witness_WraparoundGuard :
    (maxWord = 0xFFFFFFFF#32 ∧ maxWord ≠ 0#32) ∧ ¬ (maxWord = 0xFFFFFFFF#32 ∧ 0#32 ≠ 0#32) ∧
      ¬ (0xFFFFFFFE#32 = 0xFFFFFFFF#32 ∧ 1#32 ≠ 0#32) := by decide
/-- For EmittedEntriesAreWellFormed, EmittedMasksHaveAPrefixLength: an entry of a list, and the entry
with 32 wildcard bits. -/
theorem witness_EmittedEntriesAreWellFormed :
    (∃ l, convert 5#32 10#32 = .ok l ∧ ⟨8#32, 0xFFFFFFFE#32⟩ ∈ l) ∧
      ∃ l, convert 0#32 0xFFFFFFFF#32 = .ok l ∧ ⟨0#32, ones 32⟩ ∈ l :=
  ⟨⟨_, test_convert_5_10, by decide⟩, ⟨[⟨0#32, 0#32⟩], by decide +kernel, by decide⟩⟩
/-- For ConvertCoversTheInterval and ConvertListsBlocksFromTheTop. -/
theorem witness_ConvertCoversTheInterval :
    (∃ l, convert 5#32 10#32 = .ok l ∧ 3 + 1 ≤ l.length) ∧ 5#32 ≤ 10#32 :=
  ⟨⟨_, test_convert_5_10, by decide⟩, by decide⟩
/-- For EntriesAreMaximal and ConvertIsMinimal: the one address 6. -/
theorem witness_EntriesAreMaximal :
    convert 6#32 6#32 = .ok [⟨6#32, 0xFFFFFFFF#32⟩] ∧ Entry.wf ⟨6#32, 0xFFFFFFFF#32⟩ = true ∧
      (∀ a : Word, Entry.covers ⟨6#32, 0xFFFFFFFF#32⟩ a = true → 6#32 ≤ a ∧ a ≤ 6#32) ∧
      ∀ a : Word, matchesSome [⟨6#32, 0xFFFFFFFF#32⟩] a = true ↔ 6#32 ≤ a ∧ a ≤ 6#32 := by
  refine ⟨by decide +kernel, by decide +kernel, fun a h => ?_, fun a => ?_⟩
  · have : a &&& 0xFFFFFFFF#32 = a := BitVec.and_allOnes
    simp only [Entry.covers, this, beq_iff_eq] at h
    subst h; decide
  · have : a &&& 0xFFFFFFFF#32 = a := BitVec.and_allOnes
    simp only [matchesSome, List.any_cons, List.any_nil, Bool.or_false, Entry.covers, this,
      beq_iff_eq, BitVec.le_def]
    constructor
    · rintro rfl; decide
    · intro h; exact BitVec.eq_of_toNat_eq (by omega)
theorem witness_CapacityFailureMeansNoSmallCover :
    (1#32 ≤ 0xFFFFFFFE#32 ∧ 0xFFFFFFFE#32 ≠ 0xFFFFFFFF#32 ∧
      convert 1#32 0xFFFFFFFE#32 = .fail .capacityExceeded) ∧
    (0#32 ≤ 0xFFFFFFFF#32 ∧ convert 0#32 0xFFFFFFFF#32 ≠ .fail .capacityExceeded) := by
  decide +kernel
theorem witness_AlignedIntervalIsOneEntry :
    (∀ n < 5, (0x1F#32).getLsbD n = true) ∧ (0x1F#32 &&& ones 5) = 0#32 ∧
      (∀ n < 0, (7#32).getLsbD n = true) ∧ ∀ n < 32, (0xFFFFFFFF#32).getLsbD n = true := by decide
theorem witness_InvertedIntervalIsEmpty : 5#32 < 10#32 ∧ 0#32 < 0xFFFFFFFF#32 := by decide
theorem witness_SelectFailsExactlyAsConvert :
    computeResult .select 1#32 0xFFFFFFFE#32 = .fail .capacityExceeded ∧ 1#32 ≠ 0#32 := by
  decide +kernel
/-- For SelectSplitsExactlyWhenCheaper, SplitAcceptsExactlyTheInterval and
SplitNeedsThreeDirectEntries. -/
theorem witness_SelectSplitsExactlyWhenCheaper :
    (1#32 ≠ 0#32 ∧ computeResult .select 1#32 7#32 =
      .split [⟨0x0#32, 0xFFFFFFFF#32⟩] [⟨0x0#32, 0xFFFFFFF8#32⟩]) ∧
    (3#32 ≠ 0#32 ∧ ∃ l, computeResult .select 3#32 0xF#32 = .direct l ∧ l.length ≤ 2 + 1) :=
  ⟨⟨by decide, test_select_split⟩, by decide, _, test_select_tie, by decide⟩
theorem witness_EngineResultIsTheCommandsResult :
    ((Engine.tick .convert 1#32 maxWord)^[1] Engine.init).pos =
      .finished (.fail .rangeTooLarge) := by decide +kernel
theorem witness_CompletionComesWithinLatMax :
    (tBusy .convert 5#32 10#32).elapsed < (tBusy .convert 5#32 10#32).params.latMax ∧
    ∀ k ≤ 1, ∃ u, Host.Core.run Sys2Proof.core k (tWith [.cycle] (tBusy .convert 5#32 10#32)) =
      .next u ∧ u.cstate = .busy := by
  refine ⟨by decide, fun k hk => ?_⟩
  match k, hk with
  | 0, _ => exact ⟨_, rfl, rfl⟩
  | 1, _ => exact ⟨_, rfl, rfl⟩
theorem witness_CommandRaceHasBothOutcomes :
    (tBusy .select 1#32 7#32).cstate = .busy ∧
      (tBusy .select 1#32 7#32).opL.wf (tBusy .select 1#32 7#32).params = true := by decide
/-- One state for each of the three outcomes. -/
theorem witness_RunningCommandKeepsItsOperands :
    (tNext (step (tWith [.cycle] (tBusy .convert 5#32 10#32)))).map State.cstate = some .busy ∧
    (tNext (step (tWith [.complete] (tBusy .convert 5#32 10#32)))).map State.cstate = some .done ∧
    (tNext (step (tWith [.reset] (tBusy .convert 5#32 10#32)))).map State.cstate = some .idle := by
  decide +kernel
/-- A step that changes ST, one that changes END, two that change OVR, and three that change STATE: an
illegal word, completion, and the cycle that reaches LAT_MAX. -/
theorem witness_HostVisibleStateChangesOnlyAsStated :
    (tNext (step (tWith [.bus (tWrite 0x008#10 9#32)] (tIdle 5#32 10#32)))).map State.stReg =
      some 9#32 ∧
    (tNext (step (tWith [.bus (tWrite 0x00C#10 9#32)] (tIdle 5#32 10#32)))).map State.endReg =
      some 9#32 ∧
    (tNext (step (tWith [.bus (tWrite 0x000#10 9#32)] (tBusy .convert 5#32 10#32)))).map
      State.ovr = some true ∧
    (tNext (step (tWith [.bus (tWrite 0x004#10 0x100#32)] (tBusy .convert 5#32 10#32).drop))).map
      State.ovr = some false ∧
    (tNext (step (tWith [.bus (tWrite 0x000#10 9#32)] (tIdle 5#32 10#32)))).map State.cstate =
      some .error ∧
    (tNext (step (tWith [.complete] (tBusy .convert 5#32 10#32)))).map State.countA = some 4#6 ∧
    (tNext (step (tWith [.cycle] { tBusy .convert 5#32 10#32 with elapsed := 9 }))).map
      State.cstate = some .done := by decide +kernel
theorem witness_ResultsDoNotDependOnHistory :
    (tIdle 5#32 10#32).cstate ≠ .busy ∧ (tDone .select 5#32 10#32).cstate ≠ .busy ∧
      (tIdle 5#32 10#32).stReg = (tDone .select 5#32 10#32).stReg ∧
      (tIdle 5#32 10#32).endReg = (tDone .select 5#32 10#32).endReg ∧
      (tIdle 5#32 10#32).ovr = (tDone .select 5#32 10#32).ovr ∧
      (tIdle 5#32 10#32).params.hasSelect = (tDone .select 5#32 10#32).params.hasSelect ∧
      (tIdle 5#32 10#32).countA ≠ (tDone .select 5#32 10#32).countA := by decide +kernel
theorem witness_BlockNeverStops : (tDone .convert 5#32 0xFFFFFFFF#32).cstate = .error := by
  decide +kernel
theorem witness_AccessDuringResetFaults :
    (tWith [.resetDuring (tWrite 0x008#10 1#32)] (tBusy .convert 5#32 10#32)).schedule =
      .resetDuring (tWrite 0x008#10 1#32) :: [] := by decide
theorem witness_HostReadSetsItsVariable :
    (tProg [.rd .countA 3] (tIdle 5#32 10#32)).host.prog[0]? = some (.rd .countA 3) ∧
      (tIdle 5#32 10#32).regValue .countA = some 0#32 ∧
      (tProg [.rdRaw 0x100#10 3] (tIdle 5#32 10#32)).host.prog[0]? =
        some (.rdRaw (Reg.aPatt 0).offset 3) ∧
      (tIdle 5#32 10#32).regValue (.aPatt 0) = none := by decide +kernel
theorem witness_HostLinesWithoutBusEffect :
    findLabel 7 (tProg [.rd .status 0, .label 7] (tIdle 0 0)).host.prog = some 1 := by decide
theorem witness_HostAccessFaultsOnBusError :
    (0x3FF#10).toNat % 4 ≠ 0 ∧
    (∀ off ∈ [0x020#10, 0x0FC#10], 0x020 ≤ off.toNat ∧ off.toNat ≤ 0x0FF) ∧
    (∀ off ∈ [0x300#10, 0x3FC#10], 0x300 ≤ off.toNat) := by decide
/-- A running SELECT is in the invariant, and its step answers a next state. -/
theorem witness_InvariantKeptByEveryStep :
    (tBusy .select 1#32 7#32).Inv ∧ (tNext (step (tBusy .select 1#32 7#32))).isSome := by
  refine ⟨⟨by decide, by decide, by decide, fun _ => rfl, fun _ => by decide, fun _ => ⟨0, rfl⟩,
    fun h => absurd h (by decide), fun h => absurd h (by decide), trivial⟩, by decide +kernel⟩

end Sys2Proof.Machine
end

section
/-! Aligned blocks. An entry with `k` wildcard bits as the interval of `2^k` addresses from its pattern
(00_scope.md R14 to R17), said over natural numbers, and the entries of a list of `convert` as such
blocks. -/

namespace Sys2Proof.Machine

/-- `e` denotes an aligned block of `2^k` addresses (00_scope.md R14, R15). -/
structure Entry.IsBlock (e : Entry) (k : Nat) : Prop where
  le : k ≤ 32
  mask_eq : e.mask = ones k
  dvd : 2 ^ k ∣ e.pattern.toNat

theorem toNat_not_ones {k : Nat} (hk : k ≤ 32) : (~~~(ones k)).toNat = 2 ^ k - 1 := by
  apply Nat.eq_of_testBit_eq
  intro n
  rw [BitVec.testBit_toNat, BitVec.getLsbD_not, getLsbD_ones, Nat.testBit_two_pow_sub_one]
  by_cases hn : n < 32
  · simp [hn, ← decide_not]
  · simp [hn, show ¬ n < k by omega]

theorem toNat_and_not_ones (p : Word) {k : Nat} (hk : k ≤ 32) :
    (p &&& ~~~(ones k)).toNat = p.toNat % 2 ^ k := by
  rw [BitVec.toNat_and, toNat_not_ones hk, Nat.and_two_pow_sub_one_eq_mod]

/-- The wildcard bits of a pattern are 0 exactly when it is a multiple of the block's size. -/
theorem and_not_ones_eq_zero_iff (p : Word) {k : Nat} (hk : k ≤ 32) :
    p &&& ~~~(ones k) = 0#32 ↔ 2 ^ k ∣ p.toNat := by
  rw [← BitVec.toNat_inj, toNat_and_not_ones p hk, BitVec.toNat_ofNat, Nat.zero_mod,
    Nat.dvd_iff_mod_eq_zero]

theorem trailingZeros_le (m : Word) (j : Nat) : trailingZeros m j ≤ j := by
  induction j with
  | zero => exact le_rfl
  | succ j ih =>
    rw [trailingZeros]
    split <;> omega

theorem wildcardCount_le (m : Word) : wildcardCount m ≤ 32 := trailingZeros_le m 32

/-- The count of `trailingZeros` begins at bit `32 - j`. -/
theorem trailingZeros_ones {k : Nat} (hk : k ≤ 32) (j : Nat) (hj : j ≤ 32) :
    trailingZeros (ones k) j = k - (32 - j) := by
  induction j with
  | zero => rw [trailingZeros]; omega
  | succ j ih =>
    rw [trailingZeros, getLsbD_ones, ih (by omega)]
    by_cases h : k ≤ 31 - j
    · rw [if_pos (by simp [h, show 31 - j < 32 by omega])]
      omega
    · rw [if_neg (by simp [h])]
      omega

theorem wildcardCount_ones {k : Nat} (hk : k ≤ 32) : wildcardCount (ones k) = k :=
  trailingZeros_ones hk 32 le_rfl

theorem Entry.wf_iff_isBlock (e : Entry) : e.wf = true ↔ ∃ k, e.IsBlock k := by
  rw [Entry.wf, Bool.and_eq_true, beq_iff_eq, beq_iff_eq]
  constructor
  · rintro ⟨hmask, hpatt⟩
    rw [hmask] at hpatt
    have hk := wildcardCount_le e.mask
    exact ⟨_, hk, hmask, (and_not_ones_eq_zero_iff _ hk).1 hpatt⟩
  · rintro ⟨k, hk, hmask, hdvd⟩
    rw [hmask, wildcardCount_ones hk]
    exact ⟨rfl, (and_not_ones_eq_zero_iff _ hk).2 hdvd⟩

namespace Entry.IsBlock

variable {e : Entry} {k : Nat}

theorem wf (h : e.IsBlock k) : e.wf = true := e.wf_iff_isBlock.2 ⟨k, h⟩

theorem wildcardCount_mask (h : e.IsBlock k) : wildcardCount e.mask = k := by
  rw [h.mask_eq, wildcardCount_ones h.le]

theorem pattern_and_not_mask (h : e.IsBlock k) : e.pattern &&& ~~~e.mask = 0#32 := by
  rw [h.mask_eq]
  exact (and_not_ones_eq_zero_iff _ h.le).2 h.dvd

/-- The pattern is a multiple of the block's size, so the OR that forms the top is a sum. -/
theorem toNat_top (h : e.IsBlock k) : e.top.toNat = e.pattern.toNat + 2 ^ k - 1 := by
  have hpos := Nat.two_pow_pos k
  obtain ⟨q, hq⟩ := h.dvd
  rw [Entry.top, h.mask_eq, BitVec.toNat_or, toNat_not_ones h.le, hq,
    ← Nat.two_pow_add_eq_or_of_lt (by omega)]
  omega

/-- The match equation (00_scope.md R17) as an interval: clearing the low `k` bits of `a` gives the
pattern exactly when `a` lies in the block. -/
theorem covers_iff (h : e.IsBlock k) (a : Word) :
    e.covers a = true ↔ e.pattern.toNat ≤ a.toNat ∧ a.toNat < e.pattern.toNat + 2 ^ k := by
  have hpos := Nat.two_pow_pos k
  have hdiv := Nat.div_add_mod a.toNat (2 ^ k)
  have hmod := Nat.mod_lt a.toNat hpos
  obtain ⟨q, hq⟩ := h.dvd
  rw [Entry.covers, beq_iff_eq, h.mask_eq, ← BitVec.toNat_inj, toNat_and_ones]
  constructor
  · intro heq
    omega
  · rintro ⟨hlo, hhi⟩
    rw [hq] at hlo hhi ⊢
    have hquot : a.toNat / 2 ^ k = q := by
      rw [Nat.div_eq_iff hpos]
      rw [Nat.mul_comm] at hlo hhi
      omega
    rw [hquot] at hdiv
    omega

theorem covers_iff_bottom_top (h : e.IsBlock k) (a : Word) :
    e.covers a = true ↔ e.bottom ≤ a ∧ a ≤ e.top := by
  have hpos := Nat.two_pow_pos k
  rw [h.covers_iff, BitVec.le_def, BitVec.le_def, h.toNat_top, Entry.bottom]
  omega

end Entry.IsBlock

/-- Every entry of a tiling is an aligned block inside the tiled interval `[st, n)`. -/
theorem TilesTo.isBlock_of_mem {st n m : Nat} {l : List Entry} (h : TilesTo st n l m)
    (hn : n ≤ 2 ^ 32) {e : Entry} (he : e ∈ l) :
    ∃ k, e.IsBlock k ∧ st ≤ e.pattern.toNat ∧ e.pattern.toNat + 2 ^ k ≤ n := by
  induction l generalizing n with
  | nil => cases he
  | cons f l ih =>
    obtain ⟨k, hk, rfl, hdvd, hle, -, htail⟩ := h
    have hpos := Nat.two_pow_pos k
    rcases List.mem_cons.1 he with rfl | hmem
    · have hpatt : (BitVec.ofNat 32 (n - 2 ^ k)).toNat = n - 2 ^ k :=
        Nat.mod_eq_of_lt (by omega)
      refine ⟨k, ⟨hk, rfl, ?_⟩, ?_⟩
      · rw [hpatt]
        exact Nat.dvd_sub hdvd dvd_rfl
      · rw [hpatt]
        omega
    · obtain ⟨k', hblock, hlo, hhi⟩ := ih htail (by omega) hmem
      exact ⟨k', hblock, hlo, by omega⟩

/-- A successful `convert` is a tiling that ends at or below `st`. -/
theorem convert_ok_tilesTo {st fin : Word} {l : List Entry} (h : convert st fin = .ok l) :
    (fin = maxWord → st = 0#32) ∧
      ∃ m, TilesTo st.toNat (fin.toNat + 1) l m ∧ m ≤ st.toNat := by
  rcases convert_spec st fin with ⟨-, -, hr⟩ | ⟨l', m, hg, hr, -, ht, hm⟩ | ⟨l', m, -, hr, -⟩
  · rw [hr] at h; cases h
  · rw [hr] at h; cases h
    exact ⟨hg, m, ht, hm⟩
  · rw [hr] at h; cases h

/-- Every emitted entry is an aligned block inside `[st, end]`. -/
theorem isBlock_of_mem_convert {st fin : Word} {l : List Entry} (h : convert st fin = .ok l)
    {e : Entry} (he : e ∈ l) :
    ∃ k, e.IsBlock k ∧ st.toNat ≤ e.pattern.toNat ∧ e.pattern.toNat + 2 ^ k ≤ fin.toNat + 1 := by
  obtain ⟨-, m, htiles, -⟩ := convert_ok_tilesTo h
  exact htiles.isBlock_of_mem (by have := fin.isLt; omega) he

end Sys2Proof.Machine
end

section
/-! The form of the emitted entries (00_scope.md R14 to R17): O29. -/

namespace Sys2Proof.Machine

/-- The whole address space is one block (40_convert.md R141). -/
theorem convert_zero_maxWord : convert 0#32 maxWord = .ok [⟨0#32, 0#32⟩] := by decide +kernel

/-- A block of `2^32` addresses fits only in the whole address space. -/
theorem convert_of_full_block {st fin : Word} {p : Nat} (hlo : st.toNat ≤ p)
    (hhi : p + 2 ^ 32 ≤ fin.toNat + 1) : st = 0#32 ∧ fin = maxWord := by
  have hfin := fin.isLt
  exact ⟨BitVec.eq_of_toNat_eq (show st.toNat = 0 by omega),
    BitVec.eq_of_toNat_eq (show fin.toNat = 2 ^ 32 - 1 by omega)⟩

/-- Settles O29: every emitted entry is an aligned block inside the interval, and one of `2^32`
addresses leaves room for no other interval than the whole address space. -/
theorem emittedEntriesAreWellFormed : Obligations.EmittedEntriesAreWellFormed := by
  unfold Obligations.EmittedEntriesAreWellFormed
  intro st fin l hconv e he
  obtain ⟨k, hblock, hlo, hhi⟩ := isBlock_of_mem_convert hconv he
  refine ⟨⟨k, hblock.le, hblock.mask_eq, hblock.wildcardCount_mask, ?_⟩,
    hblock.pattern_and_not_mask, hblock.wf, hblock.covers_iff_bottom_top⟩
  rintro rfl
  obtain ⟨rfl, rfl⟩ := convert_of_full_block hlo hhi
  rw [convert_zero_maxWord] at hconv
  cases hconv
  exact ⟨rfl, rfl, rfl⟩

end Sys2Proof.Machine
end

section
/-! Bus accesses at the offset of a register (10_state.md R33; 20_memory.md R75, R76): what a read and
a write of four bytes do, by the register's name. -/

namespace Sys2Proof.Machine

/-- The offset map reads back every register (10_state.md R33). -/
theorem decodeOffset_offset (r : Reg) : decodeOffset r.offset = some r := by
  cases r with
  | aPatt n | aMask n | bPatt n | bMask n => revert n; decide
  | _ => rfl

theorem txnReg_offset (d : Dir) (r : Reg) (v : Word) : Txn.reg ⟨d, r.offset, 4, v⟩ = some r :=
  decodeOffset_offset r

/-- A read of a defined register answers its value and has no other effect (20_memory.md R75). -/
theorem State.busAccess_read_of_regValue {s : State} {r : Reg} {w : Word}
    (h : s.regValue r = some w) (d : Word) :
    s.busAccess ⟨.read, r.offset, 4, d⟩ = .next { s with response := some (.data w) } := by
  simp only [State.busAccess, txnReg_offset, State.readReg, h]

/-- A write to a register succeeds as an access and has the register's effect (20_memory.md R76). -/
theorem State.busAccess_write (s : State) (r : Reg) (v : Word) :
    s.busAccess ⟨.write, r.offset, 4, v⟩ =
      State.writeReg r v { s with response := some .written } := by
  simp only [State.busAccess, txnReg_offset]

/-- A write to any register but CMD is a store (20_memory.md R76). -/
theorem State.busAccess_write_of_ne_cmd (s : State) {r : Reg} (hr : r ≠ .cmd) (v : Word) :
    s.busAccess ⟨.write, r.offset, 4, v⟩ =
      .next (State.storeReg r v { s with response := some .written }) := by
  rw [State.busAccess_write]
  rcases State.writeReg_cases r v { s with response := some .written } with ⟨hcmd, -⟩ | ⟨-, h⟩
  · exact absurd hcmd hr
  · exact h

/-- A command word that arrives while BUSY is dropped, whatever it is (10_state.md R52). -/
theorem State.writeCmd_of_busy {s : State} (hbusy : s.cstate = .busy) (v : Word) :
    s.writeCmd v = .next s.drop := by
  rcases State.writeCmd_cases v s with ⟨-, h⟩ | ⟨hnot, -⟩ | ⟨hnot, -⟩ | ⟨hnot, -⟩
  · exact h
  all_goals exact absurd hbusy hnot

end Sys2Proof.Machine
end

section
/-! The words of STATUS and CAPS by their fields (10_state.md R35 to R38, R44). -/

namespace Sys2Proof.Machine

/-- STATUS as its fields side by side, from bit 31 down: the layout of 10_state.md R38, checked at
each code of STATE and ERR. -/
theorem State.statusWord_eq_append (s : State) :
    s.statusWord = 0#23 ++ BitVec.ofBool s.ovr ++ s.err.bits ++ 0#2 ++ s.cstate.bits := by
  rw [State.statusWord]
  cases s.cstate <;> cases s.err <;> cases s.ovr <;> rfl

theorem State.statusWord_state (s : State) : s.statusWord.extractLsb' 0 2 = s.cstate.bits := by
  rw [State.statusWord_eq_append, BitVec.extractLsb'_append_eq_right]

theorem State.statusWord_reserved_low (s : State) : s.statusWord.extractLsb' 2 2 = 0#2 := by
  rw [State.statusWord_eq_append, BitVec.extractLsb'_append_eq_of_le (by decide),
    BitVec.extractLsb'_append_eq_right]

theorem State.statusWord_err (s : State) : s.statusWord.extractLsb' 4 4 = s.err.bits := by
  rw [State.statusWord_eq_append, BitVec.extractLsb'_append_eq_of_le (by decide),
    BitVec.extractLsb'_append_eq_of_le (by decide), BitVec.extractLsb'_append_eq_right]

theorem State.statusWord_ovr (s : State) : s.statusWord.getLsbD 8 = s.ovr := by
  simp only [State.statusWord_eq_append, BitVec.getLsbD_append, Nat.reduceLT, Nat.reduceSub,
    if_true, if_false, BitVec.getLsbD_ofBool, Order.lt_one_iff, decide_true, Bool.true_and]

theorem State.statusWord_reserved_high (s : State) : s.statusWord.extractLsb' 9 23 = 0#23 := by
  simp only [State.statusWord_eq_append, BitVec.extractLsb'_append_eq_of_le, Nat.reduceLeDiff,
    Nat.reduceSub, BitVec.extractLsb'_eq_self]

theorem ovrAfterStatusWrite_eq (ovr : Bool) (v : Word) :
    ovrAfterStatusWrite ovr v = (ovr && !v.getLsbD 8) := by
  rw [ovrAfterStatusWrite]
  cases v.getLsbD 8
  · exact (Bool.and_true ovr).symm
  · exact (Bool.and_false ovr).symm

theorem State.capsWord_eq (s : State) :
    s.capsWord = if s.params.hasSelect then 0x00000120#32 else 0x00000020#32 := by
  rw [State.capsWord]
  cases s.params.hasSelect <;> rfl

end Sys2Proof.Machine
end

section
/-! STATUS, CAPS and a CMD write while BUSY, on the bus (10_state.md R38, R44, R52): O10, O11, O17. -/

namespace Sys2Proof.Machine

/-- Settles O10: the word read is `statusWord`, whose fields stand side by side. -/
theorem statusReadAndWrite : Obligations.StatusReadAndWrite := by
  unfold Obligations.StatusReadAndWrite
  intro s d v
  have hread := State.busAccess_read_of_regValue (s := s) (r := .status) rfl d
  have hwrite := s.busAccess_write_of_ne_cmd (r := .status) (by decide) v
  rw [State.storeReg, ovrAfterStatusWrite_eq] at hwrite
  refine ⟨s.statusWord, hread, ?_⟩
  rw [State.statusWord_state, State.statusWord_reserved_low, State.statusWord_err,
    State.statusWord_ovr, State.statusWord_reserved_high]
  exact ⟨(· ▸ rfl), (· ▸ rfl), (· ▸ rfl), (· ▸ rfl), rfl,
    (· ▸ rfl), (· ▸ rfl), (· ▸ rfl), (· ▸ rfl), rfl, rfl, hwrite⟩

/-- Settles O11: CAPS has a defined value in every state, and a store to it does nothing. -/
theorem capsIsConstant : Obligations.CapsIsConstant := by
  unfold Obligations.CapsIsConstant
  intro s d
  rw [← s.capsWord_eq]
  exact ⟨State.busAccess_read_of_regValue (r := .caps) rfl d,
    s.busAccess_write_of_ne_cmd (r := .caps) (by decide) d⟩

/-- Settles O17: the access reaches CMD, and a word that reaches CMD while BUSY is dropped. -/
theorem commandWriteWhileBusyIsDropped : Obligations.CommandWriteWhileBusyIsDropped := by
  unfold Obligations.CommandWriteWhileBusyIsDropped
  intro s v hbusy
  rw [show (0x000#10) = Reg.cmd.offset from rfl, State.busAccess_write]
  exact State.writeCmd_of_busy (s := { s with response := some .written }) hbusy v

end Sys2Proof.Machine
end

section
/-! Legal and illegal accesses (20_memory.md R73, R77): O7. -/

namespace Sys2Proof.Machine

theorem reservedOff_iff (off : BitVec 10) :
    reservedOff off = true ↔ (0x020 ≤ off.toNat ∧ off.toNat ≤ 0x0FF) ∨ 0x300 ≤ off.toNat := by
  simp [reservedOff, BitVec.le_def]

theorem txn_wf_iff (t : Txn) :
    t.wf = true ↔ t.size = 4 ∧ t.off.toNat % 4 = 0 ∧
      ¬ ((0x020 ≤ t.off.toNat ∧ t.off.toNat ≤ 0x0FF) ∨ 0x300 ≤ t.off.toNat) := by
  rw [← reservedOff_iff]
  simp [Txn.wf, and_assoc]

theorem extractLsb'_zero_two_eq_zero_iff (off : BitVec 10) :
    off.extractLsb' 0 2 = 0#2 ↔ off.toNat % 4 = 0 := by
  rw [← BitVec.toNat_inj, BitVec.extractLsb'_toNat]
  rfl

theorem toNat_extractLsb'_eight_two (off : BitVec 10) :
    (off.extractLsb' 8 2).toNat = off.toNat / 256 := by
  have hlt := off.isLt
  rw [BitVec.extractLsb'_toNat, Nat.shiftRight_eq_div_pow]
  omega

/-- The offset map leaves out exactly the offsets that are misaligned or reserved. By pages of 0x100:
in page 0 all past the eight registers, in page 3 all, in the buffers' pages 1 and 2 none. -/
theorem decodeOffset_eq_none_iff (off : BitVec 10) :
    decodeOffset off = none ↔ off.toNat % 4 ≠ 0 ∨ reservedOff off = true := by
  have hlt := off.isLt
  have hpage := toNat_extractLsb'_eight_two off
  rw [decodeOffset, reservedOff_iff]
  split
  next hmis =>
    rw [ne_eq, extractLsb'_zero_two_eq_zero_iff] at hmis
    exact iff_of_true rfl (.inl hmis)
  next haligned =>
    rw [not_not, extractLsb'_zero_two_eq_zero_iff] at haligned
    split
    next hpage0 =>
      split
      case h_9 =>
        refine iff_of_true rfl ?_
        simp only [imp_false] at *
        omega
      all_goals exact iff_of_false nofun (by omega)
    next hpage1 => exact iff_of_false nofun (by omega)
    next hpage2 => exact iff_of_false nofun (by omega)
    next hne0 hne1 hne2 =>
      rw [imp_false] at hne0 hne1 hne2
      exact iff_of_true rfl (by omega)

/-- The accesses that address no register are those that are not legal. -/
theorem txnReg_eq_none_iff (t : Txn) : Txn.reg t = none ↔ ¬ t.wf = true := by
  rw [Txn.reg, txn_wf_iff, ← reservedOff_iff]
  split
  next hsize =>
    rw [decodeOffset_eq_none_iff]
    tauto
  next hsize => exact iff_of_true rfl (fun hwf => hsize hwf.1)

/-- A BusError changes nothing but the answer (20_memory.md R73, R77; 60_exceptions.md R184). -/
theorem State.busAccess_of_not_wf {t : Txn} (ht : ¬ t.wf = true) (s : State) :
    s.busAccess t = .next { s with response := some .busError } := by
  rw [State.busAccess, (txnReg_eq_none_iff t).2 ht]

/-- A write to any register is answered, and leaves the answer as it finds it. -/
theorem State.writeReg_response (r : Reg) (v : Word) (s : State) :
    ∃ u, s.writeReg r v = .next u ∧ u.response = s.response := by
  rcases State.writeReg_cases r v s with ⟨-, hcmd⟩ | ⟨-, hstore⟩
  · rw [hcmd]
    rcases State.writeCmd_cases v s with ⟨-, h⟩ | ⟨-, -, h⟩ | ⟨-, -, -, h⟩ | ⟨-, -, -, h⟩
    all_goals exact ⟨_, h, rfl⟩
  · exact ⟨_, hstore, by rw [State.storeReg_keeps]⟩

/-- A legal access succeeds: a read answers data, and a write that it is done. -/
theorem State.busAccess_of_wf {t : Txn} (ht : t.wf = true) (s : State) :
    ∃ u, s.busAccess t = .next u ∧ u.response ≠ some .busError := by
  rcases State.busAccess_cases t s with ⟨hnone, -⟩ | ⟨_, _, -, -, -, h⟩ | ⟨_, -, -, -, h⟩ |
    ⟨r, -, -, h⟩
  · exact absurd ht ((txnReg_eq_none_iff t).1 hnone)
  · exact ⟨_, h, nofun⟩
  · exact ⟨_, h, nofun⟩
  · obtain ⟨u, hu, hresp⟩ := State.writeReg_response r t.data { s with response := some .written }
    exact ⟨u, h.trans hu, hresp ▸ nofun⟩

/-- Settles O7: an access is legal exactly when it meets the second clause's hypothesis, and the first
clause's is its negation. -/
theorem illegalAccessIsBusErrorWithoutEffect : Obligations.IllegalAccessIsBusErrorWithoutEffect := by
  unfold Obligations.IllegalAccessIsBusErrorWithoutEffect
  intro t s
  constructor
  · intro hillegal
    have hwf : ¬ t.wf = true := by
      rw [txn_wf_iff]
      omega
    exact State.busAccess_of_not_wf hwf s
  · intro hlegal
    exact State.busAccess_of_wf ((txn_wf_iff t).2 hlegal) s

end Sys2Proof.Machine
end

section
/-! The strip loop in closed form (40_convert.md R124): O26. -/

namespace Sys2Proof.Machine

/-- After `j` strip rounds the low `j` bits are stripped, whether or not the test held before
each. -/
theorem Work.iterate_stripRound_atCursor (c : Word) (j : Nat) :
    Work.stripRound^[j] (Work.atCursor c) = Work.stripped c j := by
  induction j with
  | zero => exact Work.atCursor_eq c
  | succ j ih => rw [Function.iterate_succ_apply', ih, Work.stripRound_stripped]

/-- The strip loop strips as many bits as the cursor has trailing 1 bits: where it stops, the bits
below are 1 and the next is 0 or past the word, and there is one such place. -/
theorem Work.strip_atCursor {c : Word} {t : Nat} (ht : t ≤ 32)
    (hones : ∀ n < t, c.getLsbD n = true) (hclear : t < 32 → c.getLsbD t = false) :
    Work.strip 32 (Work.atCursor c) = Work.stripped c t := by
  obtain ⟨u, -, hu, hstrip, honesU, hclearU⟩ := Work.strip_stripped c 32 0
  have hut : u = t := by
    rcases lt_trichotomy u t with hlt | heq | hgt
    · exact absurd (hones u hlt) (Bool.eq_false_iff.1 (hclearU (by omega)))
    · exact heq
    · exact absurd (honesU t t.zero_le hgt) (Bool.eq_false_iff.1 (hclear (by omega)))
  rw [Work.atCursor_eq, hstrip, hut]

/-- The strip test fails where the run of trailing 1 bits ends; past bit 31 there is no bit left. -/
theorem Work.canStrip_stripped_of_clear {c : Word} {t : Nat}
    (hclear : t < 32 → c.getLsbD t = false) :
    (Work.stripped c t).canStrip = false := by
  rw [Work.canStrip_stripped]
  rcases Nat.lt_or_ge t 32 with hlt | hge
  · exact hclear hlt
  · exact BitVec.getLsbD_of_ge c t hge

/-- The loop's `i` as a number: a power of two, until its one bit leaves the word. -/
theorem one_shiftLeft_eq_ite (t : Nat) :
    1#32 <<< t = if t < 32 then BitVec.ofNat 32 (2 ^ t) else 0#32 := by
  split
  next => rw [← BitVec.twoPow_eq, ← BitVec.toNat_inj, BitVec.toNat_twoPow, BitVec.toNat_ofNat]
  next hge => exact BitVec.shiftLeft_eq_zero (Nat.not_lt.1 hge)

/-- Settles O26: the loop's registers after `j` rounds are those with the low `j` bits stripped, and
its test there is bit `j` of the cursor. -/
theorem stripLoopClosedForm : Obligations.StripLoopClosedForm := by
  unfold Obligations.StripLoopClosedForm
  intro c t ht hones hclear
  have hstrip := Work.strip_atCursor ht hones hclear
  refine ⟨fun j hj => ?_, ?_, ?_, ?_⟩
  · rw [Work.iterate_stripRound_atCursor, Work.canStrip_stripped, hones j hj]
  · rw [hstrip, Work.iterate_stripRound_atCursor]
  · rw [hstrip, Work.canStrip_stripped_of_clear hclear]
  · rw [hstrip, Work.stripped, one_shiftLeft_eq_ite]

end Sys2Proof.Machine
end

section
/-! Intervals from address 0 (40_convert.md R141): with 0 as the lower endpoint, each block is as large
as the alignment of the addresses left allows, so each block doubles that alignment and 32 blocks leave
no address. -/

namespace Sys2Proof.Machine

/-- Each block takes at least one address. -/
theorem TilesTo.add_length_le {st n m : Nat} {l : List Entry} (h : TilesTo st n l m) :
    m + l.length ≤ n := by
  induction l generalizing n with
  | nil => exact h.ge
  | cons e l ih =>
    obtain ⟨k, -, -, -, hle, -, htail⟩ := h
    have hpos := Nat.two_pow_pos k
    have := ih htail
    rw [List.length_cons]
    omega

/-- Subtracting the largest power of two that divides a number leaves a multiple of the next one. -/
theorem two_pow_succ_dvd_sub {n k : Nat} (hdvd : 2 ^ k ∣ n) (hnot : ¬ 2 ^ (k + 1) ∣ n) :
    2 ^ (k + 1) ∣ n - 2 ^ k := by
  obtain ⟨q, rfl⟩ := hdvd
  rw [pow_succ, Nat.mul_dvd_mul_iff_left (Nat.two_pow_pos k)] at hnot
  rw [pow_succ, ← Nat.mul_sub_one]
  exact Nat.mul_dvd_mul_left _ (by omega)

/-- From address 0, the addresses left after a block are aligned to twice the block's size: a larger
aligned block would have been taken. -/
theorem TilesTo.dvd_of_zero {n m j : Nat} {l : List Entry} (h : TilesTo 0 n l m)
    (hn : 2 ^ j ∣ n) : 2 ^ (j + l.length) ∣ m := by
  induction l generalizing n j with
  | nil =>
    obtain rfl : n = m := h
    exact hn
  | cons e l ih =>
    obtain ⟨k, -, -, hdvd, hle, hmax, htail⟩ := h
    have hpos : 0 < n := by
      have := Nat.two_pow_pos k
      omega
    have hlargest : ∀ i, 2 ^ i ∣ n → i ≤ k := fun i hi =>
      hmax i hi (by have := Nat.le_of_dvd hpos hi; omega)
    have hnot : ¬ 2 ^ (k + 1) ∣ n := fun hi => by
      have := hlargest _ hi
      omega
    have hrest : 2 ^ (j + 1) ∣ n - 2 ^ k :=
      (pow_dvd_pow 2 (Nat.succ_le_succ (hlargest j hn))).trans (two_pow_succ_dvd_sub hdvd hnot)
    rw [List.length_cons, Nat.add_comm l.length, ← Nat.add_assoc]
    exact ih htail hrest

/-- An interval from address 0 passes the guard and the capacity check (40_convert.md R141;
41_select.md R168). -/
theorem exists_convert_zero_ok (fin : Word) : ∃ l, convert 0#32 fin = .ok l := by
  rcases convert_spec 0#32 fin with ⟨-, hne, -⟩ | ⟨l, -, -, hok, -⟩ |
    ⟨l, m, -, -, hlength, htiles, hpos⟩
  · exact absurd rfl hne
  · exact ⟨l, hok⟩
  · have hfin := fin.isLt
    have hle := htiles.add_length_le
    have hdvd := htiles.dvd_of_zero (j := 0) (one_dvd _)
    rw [hlength] at hle hdvd
    exact absurd (Nat.le_of_dvd (Nat.zero_lt_of_lt hpos) hdvd) (by omega)

end Sys2Proof.Machine
end

section
/-! The choice of SELECT by the counts (41_select.md R161, R165): O41. -/

namespace Sys2Proof.Machine

section
variable {st fin : Word} {d r a : List Entry}

theorem chooseRules_of_lt (h : r.length + a.length < d.length) :
    chooseRules d r a = .split r a := if_pos h

theorem chooseRules_of_le (h : d.length ≤ r.length + a.length) :
    chooseRules d r a = .direct d := if_neg (Nat.not_lt.2 h)

/-- SELECT with a lower endpoint above 0 compares the counts of the three lists of R161. -/
theorem selectCmd_of_ok (hst : st ≠ 0#32) (hd : convert st fin = .ok d)
    (hr : convert 0#32 (st - 1#32) = .ok r) (ha : convert 0#32 fin = .ok a) :
    selectCmd st fin = chooseRules d r a := by
  simp only [selectCmd, hd, if_neg hst, hr, ha]

end

/-- Settles O41: both alternatives start at address 0 and succeed, so SELECT comes to the comparison
of the counts. -/
theorem selectSplitsExactlyWhenCheaper : Obligations.SelectSplitsExactlyWhenCheaper := by
  unfold Obligations.SelectSplitsExactlyWhenCheaper
  intro st fin d hst hd
  obtain ⟨r, hr⟩ := exists_convert_zero_ok (st - 1#32)
  obtain ⟨a, ha⟩ := exists_convert_zero_ok fin
  have hselect : computeResult .select st fin = chooseRules d r a := selectCmd_of_ok hst hd hr ha
  rw [hselect]
  exact ⟨r, a, hr, ha, chooseRules_of_lt, chooseRules_of_le⟩

end Sys2Proof.Machine
end

section
/-! A block that is not BUSY, and reset (70_reset_and_hazards.md R211, R212): O53. -/

namespace Sys2Proof.Machine

section
variable {s : State}

/-- Without a command in flight there is none to complete (60_exceptions.md R201). -/
theorem State.completionTurn_of_not_busy (h : s.cstate ≠ .busy) : s.completionTurn = s := by
  rcases s.completionTurn_cases with ⟨-, hidle⟩ | ⟨hbusy, -⟩
  · exact hidle
  · exact absurd hbusy h

/-- Without a command in flight the engine does not move (60_exceptions.md R201). -/
theorem State.cycleTurn_of_not_busy (h : s.cstate ≠ .busy) : s.cycleTurn = s := by
  rcases s.cycleTurn_cases with ⟨-, hidle⟩ | ⟨hbusy, -⟩ | ⟨hbusy, -⟩
  · exact hidle
  all_goals exact absurd hbusy h

theorem State.slotDefined_of_ne_done (h : s.cstate ≠ .done) (c : BitVec 6) (n : Fin 32) :
    s.slotDefined c n = false := by
  rw [State.slotDefined, beq_false_of_ne h, Bool.false_and]

/-- Outside DONE no slot of either buffer has a value (10_state.md R47). -/
theorem State.regValue_slots_of_ne_done (h : s.cstate ≠ .done) (n : Fin 32) :
    s.regValue (.aPatt n) = none ∧ s.regValue (.aMask n) = none ∧
      s.regValue (.bPatt n) = none ∧ s.regValue (.bMask n) = none := by
  simp [State.regValue, State.slotDefined_of_ne_done h]

end

/-- Settles O53: reset leaves IDLE, which is neither DONE, so that no slot has a value, nor BUSY, so
that the engine has nothing to complete. The registers are read off the state of R211. -/
theorem resetGivesTheStatedValues : Obligations.ResetGivesTheStatedValues := by
  unfold Obligations.ResetGivesTheStatedValues
  intro s
  have hnotBusy : s.applyReset.cstate ≠ .busy := by
    rw [State.applyReset_cstate]
    decide
  have hnotDone : s.applyReset.cstate ≠ .done := by
    rw [State.applyReset_cstate]
    decide
  have hstatus : s.applyReset.statusWord = 0#32 := by
    rw [State.statusWord_eq_append, State.applyReset_cstate, State.applyReset_err,
      State.applyReset_ovr]
    rfl
  have hcaps : s.applyReset.regValue .caps =
      some (if s.params.hasSelect then 0x00000120#32 else 0x00000020#32) :=
    congrArg some s.applyReset.capsWord_eq
  have hcomplete : State.runTurn .complete s.applyReset = .next s.applyReset :=
    congrArg Host.Outcome.next (State.completionTurn_of_not_busy hnotBusy)
  have hcycle : State.runTurn .cycle s.applyReset = .next s.applyReset :=
    congrArg Host.Outcome.next (State.cycleTurn_of_not_busy hnotBusy)
  exact ⟨s.applyReset, rfl, rfl, rfl, rfl, rfl, rfl, rfl, rfl, rfl, rfl, rfl,
    congrArg some hstatus, rfl, rfl, rfl, hcaps, State.regValue_slots_of_ne_done hnotDone,
    hcomplete, hcycle⟩

end Sys2Proof.Machine
end

section
/-! The decoder and the encoder (30_encoding.md R102 to R106; 20_memory.md R72): O1 to O4 and O6. -/

namespace Sys2Proof.Machine

/-- The decoder answers a command at that command's own word only (30_encoding.md R103 to R105). -/
theorem decodeWord_eq_ok_iff (w : Word) (i : Instr) : decodeWord w = .ok i ↔ w = encode i := by
  rcases decodeWord_cases w with ⟨rfl, h⟩ | ⟨rfl, h⟩ | ⟨hne1, hne2, h⟩
  · rw [h]
    cases i <;> decide
  · rw [h]
    cases i <;> decide
  · rw [h]
    refine iff_of_false nofun ?_
    cases i
    · exact hne1
    · exact hne2

theorem decode_encodeBytes (i : Instr) : decode (encodeBytes i) = .ok i := by
  rw [encodeBytes, decode_toLanes, decodeWord_eq_ok_iff]

/-- Four byte lanes are those of the word they make up (20_memory.md R72): each is cut out of the
word where it was put. -/
theorem toLanes_ofLanes (a b c d : Byte) : toLanes (ofLanes [a, b, c, d]) = [a, b, c, d] := by
  have below : ∀ {n : Nat} (x : Byte) (y : BitVec n) (j : Nat), 8 * j + 8 ≤ n →
      (x ++ y).extractLsb' (8 * j) 8 = y.extractLsb' (8 * j) 8 := fun _ _ _ h =>
    BitVec.extractLsb'_append_eq_of_add_le h
  have h0 := (below d (c ++ (b ++ a)) 0 (by decide)).trans (below c (b ++ a) 0 (by decide))
  have h1 := (below d (c ++ (b ++ a)) 1 (by decide)).trans (below c (b ++ a) 1 (by decide))
  have h2 := below d (c ++ (b ++ a)) 2 (by decide)
  rw [toLanes]
  congr
  · exact h0.trans BitVec.extractLsb'_append_eq_right
  · exact h1.trans BitVec.extractLsb'_append_eq_left
  · exact h2.trans BitVec.extractLsb'_append_eq_left
  · exact BitVec.extractLsb'_append_eq_left

/-- Settles O2: only four bytes decode, and their word decodes to a command exactly when it is the
command's own; the bytes are then its lanes. -/
theorem onlyTheEncodingDecodes : Obligations.OnlyTheEncodingDecodes := by
  unfold Obligations.OnlyTheEncodingDecodes
  intro bs i
  constructor
  · intro h
    rw [decode] at h
    split at h
    next hlength =>
      obtain ⟨a, b, c, d, rfl⟩ := List.length_eq_four.1 hlength
      rw [encodeBytes, ← (decodeWord_eq_ok_iff _ i).1 h, toLanes_ofLanes]
    next => cases h
  · rintro rfl
    exact decode_encodeBytes i

/-- Settles O1: the two words are the table's, and the decoder answers each. -/
theorem decodeOfEncode : Obligations.DecodeOfEncode := by
  unfold Obligations.DecodeOfEncode
  exact ⟨rfl, rfl, fun i => ⟨decode_encodeBytes i, (decodeWord_eq_ok_iff _ i).2 rfl⟩⟩

/-- Settles O3: eight words, each decoded by evaluation. -/
theorem commandWordsDecode : Obligations.CommandWordsDecode := by
  unfold Obligations.CommandWordsDecode
  decide

theorem rsvdField_eq_zero_iff (w : Word) : rsvdField w = 0#28 ↔ w.toNat / 16 = 0 := by
  have hlt := w.isLt
  rw [← BitVec.toNat_inj, rsvdField, BitVec.extractLsb'_toNat, Nat.shiftRight_eq_div_pow,
    Nat.mod_eq_of_lt (by omega)]
  rfl

/-- Settles O4: the two command words have `RSVD = 0`; every other word is told by its `RSVD`. -/
theorem decoderIsExactMatch : Obligations.DecoderIsExactMatch := by
  unfold Obligations.DecoderIsExactMatch
  intro w
  refine ⟨decodeWord_eq_ok_iff w .convert, decodeWord_eq_ok_iff w .select, ?_⟩
  rcases decodeWord_cases w with ⟨rfl, -⟩ | ⟨rfl, -⟩ | ⟨hne1, hne2, h⟩
  · decide
  · decide
  · have hnat : w.toNat ≠ 1 ∧ w.toNat ≠ 2 :=
      ⟨fun h1 => hne1 (BitVec.eq_of_toNat_eq h1), fun h2 => hne2 (BitVec.eq_of_toNat_eq h2)⟩
    rw [h]
    by_cases hrsvd : w.toNat / 16 = 0
    · simp [rsvdField_eq_zero_iff, hrsvd, hnat]
    · simp [rsvdField_eq_zero_iff, hrsvd]

theorem getLsbD_byteLane (w : Word) (j : Nat) {b : Nat} (hb : b < 8) :
    (byteLane w j).getLsbD b = w.getLsbD (8 * j + b) := by
  rw [byteLane, BitVec.getLsbD_extractLsb', decide_eq_true hb, Bool.true_and]

theorem getElem_toLanes (w : Word) (j : Nat) (h : j < (toLanes w).length) :
    (toLanes w)[j] = byteLane w j := by
  match j, h with
  | 0, _ | 1, _ | 2, _ | 3, _ => rfl

/-- Settles O6: lane `j` of the list is byte `j` of the word. -/
theorem byteLanesAreLittleEndian : Obligations.ByteLanesAreLittleEndian := by
  unfold Obligations.ByteLanesAreLittleEndian
  intro w
  refine ⟨ofLanes_toLanes w, rfl, fun j b hb h => ?_⟩
  rw [getElem_toLanes, getLsbD_byteLane w j hb]

end Sys2Proof.Machine
end

section
/-! The offset map (10_state.md R33): O5. -/

namespace Sys2Proof.Machine

/-- An offset that holds a register is that register's. In page 0 the offset is one of eight
literals; in the buffers' pages bits 7 to 3 are the slot, and bit 2 tells mask from pattern. -/
theorem eq_offset_of_decodeOffset {off : BitVec 10} {r : Reg} (h : decodeOffset off = some r) :
    off = r.offset := by
  have hlt := off.isLt
  have hpage := toNat_extractLsb'_eight_two off
  have hslot : (slotIndex off).val = off.toNat / 8 % 32 := by
    rw [slotIndex, BitVec.val_toFin, BitVec.extractLsb'_toNat, Nat.shiftRight_eq_div_pow]
  have hhalf : off.getLsbD 2 = decide (off.toNat / 4 % 2 = 1) := by
    rw [BitVec.getLsbD, Nat.testBit_eq_decide_div_mod_eq]
  rw [decodeOffset] at h
  split at h
  next => cases h
  next haligned =>
    rw [not_not, extractLsb'_zero_two_eq_zero_iff] at haligned
    split at h
    case h_1 =>
      split at h
      all_goals cases h
      all_goals exact BitVec.eq_of_toNat_eq ‹_›
    case h_4 => cases h
    all_goals
      rw [hhalf] at h
      split at h
      all_goals
        cases h
        simp only [decide_eq_true_eq] at *
        rw [← BitVec.toNat_inj, Reg.offset, BitVec.toNat_ofNat]
        omega

theorem decodeOffset_eq_some_iff (off : BitVec 10) (r : Reg) :
    decodeOffset off = some r ↔ off = r.offset :=
  ⟨eq_offset_of_decodeOffset, fun h => h ▸ decodeOffset_offset r⟩

theorem txnReg_eq_some_iff (t : Txn) (r : Reg) :
    Txn.reg t = some r ↔ t.size = 4 ∧ t.off = r.offset := by
  rw [Txn.reg]
  split
  next hsize => rw [decodeOffset_eq_some_iff, and_iff_right hsize]
  next hsize => exact iff_of_false nofun (fun h => hsize h.1)

/-- Settles O5: the legal transactions are those that address a register, and the register gives the
offset and the size. -/
theorem offsetMapAgrees : Obligations.OffsetMapAgrees := by
  unfold Obligations.OffsetMapAgrees
  refine ⟨decodeOffset_eq_some_iff, fun t => ?_⟩
  rw [← not_not (a := t.wf = true), ← txnReg_eq_none_iff, ← ne_eq, Option.ne_none_iff_exists']
  refine exists_congr fun r => ⟨fun h => ?_, fun h => h.1⟩
  obtain ⟨hsize, hoff⟩ := (txnReg_eq_some_iff t r).1 h
  exact ⟨h, hoff, hsize⟩

end Sys2Proof.Machine
end

section
/-! What a step does to the block (20_memory.md R81): the inversion lemma from which the frame of a
step and the invariant are derived. -/

namespace Sys2Proof.Machine

/-- What one step does to the block's own state, the answer on the bus, the draw counter, the host
and the schedule apart. Each case carries the turn or the write that brings it. -/
inductive BlockStep (s : State) : State → Prop where
  /-- No effect: a read, a BusError, a host line without an access, an engine turn while idle. -/
  | quiet (hidle : s.nextTurn = .cycle → s.cstate ≠ .busy) : BlockStep s s
  /-- A command word while BUSY (10_state.md R52). -/
  | drop (v : Word) (hw : s.nextWrite = some (.cmd, v)) (hbusy : s.cstate = .busy) :
      BlockStep s s.drop
  /-- A legal command word when not BUSY (10_state.md R51). -/
  | accept (i : Instr) (v : Word) (hw : s.nextWrite = some (.cmd, v)) (hidle : s.cstate ≠ .busy)
      (hwf : i.wf s.params = true) : BlockStep s (s.accept i)
  /-- An illegal command word when not BUSY (10_state.md R51). -/
  | reject (v : Word) (hw : s.nextWrite = some (.cmd, v)) (hidle : s.cstate ≠ .busy) :
      BlockStep s (s.errorEntry .illegalCmd)
  /-- A write to a register other than CMD (20_memory.md R76). -/
  | store (r : Reg) (v : Word) (hw : s.nextWrite = some (r, v)) (hr : r ≠ .cmd) :
      BlockStep s (s.storeReg r v)
  /-- An engine cycle within the bound (70_reset_and_hazards.md R222). -/
  | tick (ht : s.nextTurn = .cycle) (hbusy : s.cstate = .busy)
      (hbound : s.elapsed + 1 < s.params.latMax) :
      BlockStep s { s with
        engine := s.engine.tick s.opL s.stL s.endL, elapsed := s.elapsed + 1 }
  /-- Completion (10_state.md R53), at the latest in the last cycle that LAT_MAX allows. -/
  | complete (ht : s.nextTurn = .complete ∨
      s.nextTurn = .cycle ∧ s.params.latMax ≤ s.elapsed + 1) (hbusy : s.cstate = .busy) :
      BlockStep s s.complete
  /-- The reset event (70_reset_and_hazards.md R210). -/
  | reset (ht : s.nextTurn = .reset) : BlockStep s s.applyReset

/-- The next turn's access as the register write it makes. -/
theorem State.nextWrite_of_txn {s : State} {x : Txn} {r : Reg}
    (hx : s.turnTxn s.nextTurn = some x) (hdir : x.dir = .write) (hreg : Txn.reg x = some r) :
    s.nextWrite = some (r, x.data) := by
  simp only [State.nextWrite, hx, hdir, hreg, if_true, Option.map_some]

/-- An engine cycle brings no transaction. -/
theorem State.nextTurn_ne_cycle_of_txn {s : State} {x : Txn}
    (hx : s.turnTxn s.nextTurn = some x) : s.nextTurn ≠ .cycle := by
  intro hcycle
  rw [hcycle] at hx
  cases hx

theorem State.nextTurn_ne_cycle_of_write {s : State} {w : Reg × Word}
    (hw : s.nextWrite = some w) : s.nextTurn ≠ .cycle := by
  intro hcycle
  rw [State.nextWrite, hcycle] at hw
  cases hw

/-- A bus access as a case of `BlockStep`, on the state without the turn taken. -/
theorem blockStep_of_busAccess {s w : State} {x : Txn} {l : List Turn}
    (hx : s.turnTxn s.nextTurn = some x)
    (hw : State.busAccess x { s with schedule := l } = .next w) :
    ∃ u n resp, BlockStep s u ∧ w = { u with
      draws := n, response := resp, host := s.host, schedule := l } := by
  obtain ⟨resp, n, w', hw', heffect⟩ := State.busAccess_effect x { s with schedule := l }
  rw [hw] at hw'
  cases hw'
  have write : ∀ {r}, x.dir = .write → Txn.reg x = some r → s.nextWrite = some (r, x.data) :=
    State.nextWrite_of_txn hx
  rcases heffect with rfl | ⟨hbusy, hdir, hreg, rfl⟩ | ⟨i, hidle, hdir, hreg, hwf, rfl⟩ |
    ⟨hidle, hdir, hreg, rfl⟩ | ⟨r, hr, hdir, hreg, rfl⟩
  · exact ⟨s, n, resp, .quiet fun h => absurd h (State.nextTurn_ne_cycle_of_txn hx), rfl⟩
  · exact ⟨_, n, resp, .drop _ (write hdir hreg) hbusy, rfl⟩
  · exact ⟨_, n, resp, .accept i _ (write hdir hreg) hidle hwf, rfl⟩
  · exact ⟨_, n, resp, .reject _ (write hdir hreg) hidle, rfl⟩
  · refine ⟨_, n, resp, .store r _ (write hdir hreg) hr, ?_⟩
    cases r <;> rfl

/-- Completion neither looks at the schedule nor changes it. -/
theorem State.complete_schedule (s : State) (l : List Turn) :
    State.complete { s with schedule := l } = { s.complete with
      draws := s.draws, response := s.response, host := s.host, schedule := l } := by
  simp only [State.complete]
  cases computeResult s.opL s.stL s.endL <;> rfl

/-- Every step that answers a next state is a case of `BlockStep`, with the turn taken off the
schedule, and it keeps the host's variables in order. -/
theorem step_blockStep {s t : State} (h : step s = .next t) :
    ∃ u n resp host, BlockStep s u ∧ (varsSorted s.host.vars → varsSorted host.vars) ∧
      t = { u with
        draws := n, response := resp, host := host, schedule := s.schedule.tail } := by
  obtain ⟨s0, rfl, h⟩ := step_next h
  rcases h with ⟨x, w, hx, hw, hhost, -, hvars⟩ | ⟨-, ht, hhost, -, hvars⟩ | ⟨ht, rfl⟩ | ⟨ht, rfl⟩ |
    ⟨ht, rfl⟩
  · obtain ⟨u, n, resp, hu, rfl⟩ := blockStep_of_busAccess hx hw
    exact ⟨u, n, resp, t.host, hu, hvars, hhost⟩
  · exact ⟨s, s.draws, s.response, t.host, .quiet fun h => absurd (ht.symm.trans h) nofun, hvars,
      hhost⟩
  · rcases State.cycleTurn_cases { s with schedule := s.schedule.tail } with
      ⟨hidle, heq⟩ | ⟨hbusy, hbound, heq⟩ | ⟨hbusy, hbound, heq⟩ <;> rw [heq]
    · exact ⟨s, s.draws, s.response, s.host, .quiet fun _ => hidle, id, rfl⟩
    · exact ⟨_, s.draws, s.response, s.host, .tick ht hbusy hbound, id, rfl⟩
    · exact ⟨_, s.draws, s.response, s.host, .complete (.inr ⟨ht, hbound⟩) hbusy, id,
        s.complete_schedule _⟩
  · rcases State.completionTurn_cases { s with schedule := s.schedule.tail } with
      ⟨hidle, heq⟩ | ⟨hbusy, heq⟩ <;> rw [heq]
    · exact ⟨s, s.draws, s.response, s.host, .quiet fun _ => hidle, id, rfl⟩
    · exact ⟨_, s.draws, s.response, s.host, .complete (.inl ht) hbusy, id,
        s.complete_schedule _⟩
  · exact ⟨_, s.draws, none, s.host, .reset ht, id, rfl⟩

end Sys2Proof.Machine
end

section
/-! The invariant (10_state.md R36, R42, R43, R49, R53; 70_reset_and_hazards.md R211, R222): O59,
O60. -/

namespace Sys2Proof.Machine

section
variable {s : State}

/-- The invariant does not speak of the operand registers, OVR, the answer on the bus, the draw
counter, the schedule, and of the host only its variables' order. -/
theorem State.Inv.frame (h : s.Inv) (st fin : Word) (ovr : Bool) (n : Nat)
    (resp : Option BusResponse) {host : HostAgent} (l : List Turn) (hvars : varsSorted host.vars) :
    State.Inv { s with
      stReg := st, endReg := fin, ovr := ovr, draws := n, response := resp, host := host
      schedule := l } :=
  { h with vars := hvars }

theorem State.Inv.accept (h : s.Inv) {i : Instr} (hwf : i.wf s.params = true) :
    (s.accept i).Inv where
  errIff := by simp
  counts := h.counts
  noResult := by simp
  present _ := hwf
  latency _ := Nat.succ_pos _
  onPath _ := ⟨0, rfl⟩
  doneResult := by simp
  errorResult := by simp
  vars := h.vars

theorem State.Inv.errorEntry_illegalCmd (h : s.Inv) : (s.errorEntry .illegalCmd).Inv where
  errIff := by simp
  counts := by simp
  noResult := by simp
  present := by simp
  latency := by simp
  onPath := by simp
  doneResult := by simp
  errorResult := by simp
  vars := h.vars

theorem State.Inv.applyReset (h : s.Inv) : s.applyReset.Inv where
  errIff := by simp
  counts := by simp
  noResult := by simp
  present := by simp
  latency := by simp
  onPath := by simp
  doneResult := by simp
  errorResult := by simp
  vars := h.vars

/-- One more micro-step of a computation in flight (10_state.md R49). -/
theorem State.Inv.tick (h : s.Inv) (hbusy : s.cstate = .busy)
    (hbound : s.elapsed + 1 < s.params.latMax) :
    State.Inv { s with
      engine := s.engine.tick s.opL s.stL s.endL, elapsed := s.elapsed + 1 } :=
  { h with
    latency := fun _ => hbound
    onPath := fun _ => by
      obtain ⟨k, hk⟩ := h.onPath hbusy
      exact ⟨k + 1, by rw [Function.iterate_succ_apply', ← hk]⟩ }

/-- What STATE, ERR and the counts are where a result is held (10_state.md R53). -/
theorem State.holdsResult_cases {r : CmdResult} (h : s.holdsResult r) :
    (s.cstate = .done ∧ s.err = .none ∧ s.countA.toNat ≤ 32 ∧ s.countB.toNat ≤ 32) ∨
    (s.cstate = .error ∧ s.err ≠ .none ∧ s.kind = .direct ∧ s.countA = 0#6 ∧ s.countB = 0#6) := by
  cases r with
  | direct l =>
    obtain ⟨hstate, herr, -, hlength, hcountA, hcountB, -⟩ := h
    exact .inl ⟨hstate, herr, hcountA ▸ hlength, by rw [hcountB]; decide⟩
  | split j k =>
    obtain ⟨hstate, herr, -, hlengthA, hlengthB, hcountA, hcountB, -⟩ := h
    exact .inl ⟨hstate, herr, hcountA ▸ hlengthA, hcountB ▸ hlengthB⟩
  | fail c =>
    obtain ⟨hstate, herr, hrest⟩ := h
    exact .inr ⟨hstate, by rw [herr]; cases c <;> decide, hrest⟩

/-- A state that holds the result of its latched command is in the invariant. -/
theorem State.Inv.of_holdsResult (h : s.holdsResult (computeResult s.opL s.stL s.endL))
    (hwf : s.opL.wf s.params = true) (hvars : varsSorted s.host.vars) : s.Inv := by
  have hbusy := State.holdsResult_not_busy h
  have hcases := State.holdsResult_cases h
  exact {
    errIff := by
      rcases hcases with ⟨hstate, herr, -⟩ | ⟨hstate, herr, -⟩ <;> simp [hstate, herr]
    counts := by
      rcases hcases with ⟨-, -, hcounts⟩ | ⟨-, -, -, hcountA, hcountB⟩
      · exact hcounts
      · simp [hcountA, hcountB]
    noResult := fun hnone => by
      rcases hcases with ⟨hstate, -⟩ | ⟨-, -, hclear⟩
      · simp [hstate] at hnone
      · exact hclear
    present := fun _ => hwf
    latency := fun hb => absurd hb hbusy
    onPath := fun hb => absurd hb hbusy
    doneResult := fun _ => h
    errorResult := fun _ _ => h
    vars := hvars }

theorem State.Inv.complete (h : s.Inv) (hbusy : s.cstate = .busy) : s.complete.Inv := by
  obtain ⟨hparams, -, -, -, hopL, hstL, hendL, -, -, hhost, -⟩ := s.complete_keeps
  refine State.Inv.of_holdsResult ?_ ?_ ?_
  · rw [hopL, hstL, hendL]
    exact s.complete_holds
  · rw [hopL, hparams]
    exact h.present (.inl hbusy)
  · rw [hhost]
    exact h.vars

/-- Every case of a step keeps the invariant. -/
theorem BlockStep.inv {u : State} (hu : BlockStep s u) (h : s.Inv) : u.Inv := by
  cases hu with
  | quiet => exact h
  | drop => exact h.frame s.stReg s.endReg true s.draws s.response s.schedule h.vars
  | accept i v hw hidle hwf => exact h.accept hwf
  | reject => exact h.errorEntry_illegalCmd
  | store r v =>
    rw [State.storeReg_keeps]
    exact h.frame _ _ _ s.draws s.response s.schedule h.vars
  | tick ht hbusy hbound => exact h.tick hbusy hbound
  | complete ht hbusy => exact h.complete hbusy
  | reset => exact h.applyReset

end

/-- Settles O60: each case of a step keeps the invariant, which does not look at what the step does
outside the block. -/
theorem invariantKeptByEveryStep : Obligations.InvariantKeptByEveryStep := by
  unfold Obligations.InvariantKeptByEveryStep
  intro s t hinv hstep
  obtain ⟨u, n, resp, host, hu, hvars, rfl⟩ := step_blockStep hstep
  exact (hu.inv hinv).frame u.stReg u.endReg u.ovr n resp _ (hvars hinv.vars)

/-- Settles O59: the state after reset is IDLE with every register clear. -/
theorem invariantHoldsAtReset : Obligations.InvariantHoldsAtReset := by
  unfold Obligations.InvariantHoldsAtReset
  exact {
    errIff := by decide
    counts := by decide
    noResult := by decide
    present := by decide
    latency := nofun
    onPath := nofun
    doneResult := nofun
    errorResult := nofun
    vars := trivial }

end Sys2Proof.Machine
end

section
/-! What a step can change of the host-visible state (10_state.md R54), and what it keeps of a
running command (20_memory.md R84): O49, O50. -/

namespace Sys2Proof.Machine

section
variable {s u : State}

/-- Only a write to ST and reset change ST, and END likewise (10_state.md R54). -/
theorem BlockStep.operands_change (hu : BlockStep s u) :
    (u.stReg ≠ s.stReg → s.nextTurn = .reset ∨ s.nextWrite = some (.st, u.stReg)) ∧
      (u.endReg ≠ s.endReg → s.nextTurn = .reset ∨ s.nextWrite = some (.fin, u.endReg)) := by
  cases hu with
  | store r v hw =>
    cases r
    case st => exact ⟨fun _ => .inr hw, absurd rfl⟩
    case fin => exact ⟨absurd rfl, fun _ => .inr hw⟩
    all_goals exact ⟨absurd rfl, absurd rfl⟩
  | complete =>
    obtain ⟨-, -, hst, hend, -⟩ := s.complete_keeps
    exact ⟨absurd hst, absurd hend⟩
  | reset ht => exact ⟨fun _ => .inl ht, fun _ => .inl ht⟩
  | _ => exact ⟨absurd rfl, absurd rfl⟩

/-- Only a drop, a STATUS write with bit 8 set and reset change OVR (10_state.md R54). -/
theorem BlockStep.ovr_change (hu : BlockStep s u) (hne : u.ovr ≠ s.ovr) :
    s.nextTurn = .reset ∨
      (∃ v, s.nextWrite = some (.cmd, v) ∧ s.cstate = .busy ∧ u.ovr = true) ∨
      (∃ v, s.nextWrite = some (.status, v) ∧ v.getLsbD 8 = true ∧ u.ovr = false) := by
  cases hu with
  | drop v hw hbusy => exact .inr (.inl ⟨v, hw, hbusy, rfl⟩)
  | store r v hw =>
    cases r
    case status =>
      have hovr : ovrAfterStatusWrite s.ovr v ≠ s.ovr := hne
      rw [ovrAfterStatusWrite] at hovr
      split at hovr
      next hbit => exact .inr (.inr ⟨v, hw, hbit, if_pos hbit⟩)
      next => exact absurd rfl hovr
    all_goals exact absurd rfl hne
  | complete =>
    obtain ⟨-, hovr, -⟩ := s.complete_keeps
    exact absurd hovr hne
  | reset ht => exact .inl ht
  | _ => exact absurd rfl hne

/-- STATE, ERR, the result registers and the buffers of two states agree. -/
def State.sameResults (s u : State) : Prop :=
  u.cstate = s.cstate ∧ u.err = s.err ∧ u.kind = s.kind ∧ u.countA = s.countA ∧
    u.countB = s.countB ∧ u.bufA = s.bufA ∧ u.bufB = s.bufB

/-- Only a CMD write when not BUSY, completion and reset change the result registers
(10_state.md R54). -/
theorem BlockStep.results_cases (hu : BlockStep s u) :
    s.sameResults u ∨ s.nextTurn = .reset ∨
      (∃ v, s.nextWrite = some (.cmd, v) ∧ s.cstate ≠ .busy) ∨
      ((s.nextTurn = .complete ∨ (s.nextTurn = .cycle ∧ s.params.latMax ≤ s.elapsed + 1)) ∧
        s.cstate = .busy ∧ u.cstate ≠ .busy ∧
        u.holdsResult (computeResult s.opL s.stL s.endL)) := by
  cases hu with
  | accept i v hw hidle | reject v hw hidle => exact .inr (.inr (.inl ⟨v, hw, hidle⟩))
  | complete ht hbusy =>
    have hres := s.complete_holds
    exact .inr (.inr (.inr ⟨ht, hbusy, State.holdsResult_not_busy hres, hres⟩))
  | reset ht => exact .inr (.inl ht)
  | store r v =>
    rw [State.storeReg_keeps]
    exact .inl ⟨rfl, rfl, rfl, rfl, rfl, rfl, rfl⟩
  | _ => exact .inl ⟨rfl, rfl, rfl, rfl, rfl, rfl, rfl⟩

/-- No step writes the parameters (00_scope.md R7 to R9). -/
theorem BlockStep.params_eq (hu : BlockStep s u) : u.params = s.params := by
  cases hu with
  | store r v => rw [State.storeReg_keeps]
  | complete => exact s.complete_keeps.1
  | _ => rfl

/-- A running command goes on with its operands, completes, or is reset (20_memory.md R84). -/
theorem BlockStep.of_busy (hu : BlockStep s u) (hbusy : s.cstate = .busy) :
    (u.cstate = .busy ∧ u.opL = s.opL ∧ u.stL = s.stL ∧ u.endL = s.endL) ∨
    (u.cstate ≠ .busy ∧ (s.nextTurn = .complete ∨ s.nextTurn = .cycle) ∧
      u.holdsResult (computeResult s.opL s.stL s.endL)) ∨
    (u.cstate = .idle ∧ s.nextTurn = .reset) := by
  cases hu with
  | accept i v hw hidle | reject v hw hidle => exact absurd hbusy hidle
  | complete ht =>
    have hres := s.complete_holds
    exact .inr (.inl ⟨State.holdsResult_not_busy hres, ht.imp_right And.left, hres⟩)
  | reset ht => exact .inr (.inr ⟨rfl, ht⟩)
  | store r v =>
    rw [State.storeReg_keeps]
    exact .inl ⟨hbusy, rfl, rfl, rfl⟩
  | _ => exact .inl ⟨hbusy, rfl, rfl, rfl⟩

end

/-- Settles O50: register by register, the cases of a step that change it. -/
theorem hostVisibleStateChangesOnlyAsStated : Obligations.HostVisibleStateChangesOnlyAsStated := by
  unfold Obligations.HostVisibleStateChangesOnlyAsStated
  intro s t hstep
  obtain ⟨u, n, resp, host, hu, -, rfl⟩ := step_blockStep hstep
  have hparams := hu.params_eq
  obtain ⟨hst, hend⟩ := hu.operands_change
  refine ⟨hst, hend, hu.ovr_change, fun hchange => ?_, ?_, hparams⟩
  · rcases hu.results_cases with ⟨hstate, herr, hkind, hcountA, hcountB, hbufA, hbufB⟩ | hcause
    · simp [hstate, herr, hkind, hcountA, hcountB, hbufA, hbufB] at hchange
    · exact hcause
  · simp only [State.capsWord, hparams]

/-- Settles O49: of the cases of a step, those from BUSY. -/
theorem runningCommandKeepsItsOperands : Obligations.RunningCommandKeepsItsOperands := by
  unfold Obligations.RunningCommandKeepsItsOperands
  intro s t hbusy hstep
  obtain ⟨u, n, resp, host, hu, -, rfl⟩ := step_blockStep hstep
  exact hu.of_busy hbusy

end Sys2Proof.Machine
end

section
/-! Runs from BUSY (70_reset_and_hazards.md R221, R222): O47, O48. -/

namespace Sys2Proof.Machine

section
variable {s t : State}

/-- While BUSY an empty schedule brings completion, so a step that stays BUSY takes a scheduled
turn. -/
theorem schedule_ne_nil_of_busy (hbusy : s.cstate = .busy) (hstep : step s = .next t)
    (hstays : t.cstate = .busy) : s.schedule ≠ [] := by
  intro hempty
  have hcomplete : step s = .next s.complete := by
    simp only [step, hempty, State.defaultTurn, (State.busy_eq_true s).2 hbusy, if_true,
      State.runTurn, State.completionTurn]
  rw [hcomplete] at hstep
  cases hstep
  exact State.holdsResult_not_busy s.complete_holds hstays

/-- A step that stays BUSY counts its engine cycle, which is within the bound. -/
theorem BlockStep.elapsed_of_busy {u : State} (hu : BlockStep s u) (hbusy : s.cstate = .busy)
    (hstays : u.cstate = .busy) (hbound : s.elapsed < s.params.latMax) :
    u.elapsed = s.elapsed + (if s.nextTurn = .cycle then 1 else 0) ∧
      u.elapsed < u.params.latMax := by
  cases hu with
  | quiet hidle => rw [if_neg fun h => hidle h hbusy]; exact ⟨rfl, hbound⟩
  | drop v hw =>
    rw [if_neg (State.nextTurn_ne_cycle_of_write hw)]; exact ⟨rfl, hbound⟩
  | accept i v hw hidle | reject v hw hidle => exact absurd hbusy hidle
  | store r v hw =>
    rw [State.storeReg_keeps, if_neg (State.nextTurn_ne_cycle_of_write hw)]; exact ⟨rfl, hbound⟩
  | tick ht _ hlt => rw [if_pos ht]; exact ⟨rfl, hlt⟩
  | complete => exact absurd hstays (State.holdsResult_not_busy s.complete_holds)
  | reset => cases hstays

theorem run_succ_of_step (hstep : step s = .next t) (k : Nat) :
    Host.Core.run Sys2Proof.core (k + 1) s = Host.Core.run Sys2Proof.core k t := by
  have hcore : Sys2Proof.core.step s = .next t := hstep
  simp only [Host.Core.run, hcore]

/-- One step of the machine as the host's interface runs it. -/
theorem run_one (s : State) : Host.Core.run Sys2Proof.core 1 s = step s := by
  cases hstep : Sys2Proof.core.step s with
  | next t => exact (run_succ_of_step hstep 0).trans hstep.symm
  | fault f | refused f =>
    refine Eq.trans ?_ hstep.symm
    simp only [Host.Core.run, hstep]

theorem run_two {u : State} (hfirst : step s = .next t) (hsecond : step t = .next u) :
    Host.Core.run Sys2Proof.core 2 s = .next u :=
  (run_succ_of_step hfirst 1).trans ((run_one t).trans hsecond)

/-- A step from BUSY to BUSY takes one scheduled turn and counts it when it is an engine cycle
(70_reset_and_hazards.md R222). -/
theorem step_stays_busy (hbusy : s.cstate = .busy) (hstep : step s = .next t)
    (hstays : t.cstate = .busy) (hbound : s.elapsed < s.params.latMax) :
    ∃ turn, s.schedule = turn :: t.schedule ∧ t.params = s.params ∧
      t.elapsed = s.elapsed + (if turn = .cycle then 1 else 0) ∧
      t.elapsed < t.params.latMax := by
  have hsched := schedule_ne_nil_of_busy hbusy hstep hstays
  obtain ⟨u, n, resp, host, hu, -, rfl⟩ := step_blockStep hstep
  obtain ⟨turn, rest, hcons⟩ := List.exists_cons_of_ne_nil hsched
  obtain ⟨hcount, hlt⟩ := hu.elapsed_of_busy hbusy hstays hbound
  have hturn : s.nextTurn = turn := by rw [State.nextTurn, hcons]
  rw [hturn] at hcount
  exact ⟨turn, by rw [hcons, List.tail_cons], hu.params_eq, hcount, hlt⟩

end

/-- Settles O47, by induction on the steps: each that stays BUSY takes one scheduled turn, and
counts it when it is an engine cycle. -/
theorem completionComesWithinLatMax : Obligations.CompletionComesWithinLatMax := by
  unfold Obligations.CompletionComesWithinLatMax
  intro n
  induction n with
  | zero => exact fun s hbound _ => ⟨by simpa using hbound, Nat.zero_le _⟩
  | succ n ih =>
    intro s hbound hrun
    obtain ⟨s', hs', hbusy⟩ := hrun 0 (Nat.zero_le _)
    cases hs'
    obtain ⟨t, ht, hstays⟩ := hrun 1 (by omega)
    rw [run_one] at ht
    obtain ⟨turn, hsched, hparams, hcount, hlt⟩ := step_stays_busy hbusy ht hstays hbound
    have htail := ih t hlt fun k hk => run_succ_of_step ht k ▸ hrun (k + 1) (by omega)
    rw [hparams, hcount] at htail
    rw [hsched, List.take_succ_cons, List.count_cons, List.length_cons]
    simp only [beq_iff_eq]
    omega

section
variable {s : State}

/-- A step takes the first scheduled turn. -/
theorem step_of_schedule {t : Turn} {rest : List Turn} (h : s.schedule = t :: rest) :
    step s = State.runTurn t { s with schedule := rest } := by
  simp only [step, h]

theorem State.completionTurn_of_busy (hbusy : s.cstate = .busy) :
    s.completionTurn = s.complete := by
  rcases s.completionTurn_cases with ⟨hidle, -⟩ | ⟨-, h⟩
  · exact absurd hbusy hidle
  · exact h

/-- CONVERT's word is accepted when not BUSY (10_state.md R51). -/
theorem State.writeCmd_convert (hidle : s.cstate ≠ .busy) :
    s.writeCmd 0x00000001#32 = .next (s.accept .convert) := by
  rcases State.writeCmd_cases 0x00000001#32 s with
    ⟨hbusy, -⟩ | ⟨-, -, h⟩ | ⟨-, hne, -⟩ | ⟨-, hne, -⟩
  · exact absurd hbusy hidle
  · exact h
  · exact absurd hne (by decide)
  · exact absurd rfl hne

/-- A scheduled write to CMD is the command write, with the access answered. -/
theorem step_cmd_write {v : Word} {rest : List Turn}
    (h : s.schedule = .bus ⟨.write, 0x000#10, 4, v⟩ :: rest) :
    step s = State.writeCmd v { s with schedule := rest, response := some .written } :=
  (step_of_schedule h).trans (State.busAccess_write _ .cmd v)

theorem step_cmd_write_of_busy {v : Word} {rest : List Turn}
    (h : s.schedule = .bus ⟨.write, 0x000#10, 4, v⟩ :: rest) (hbusy : s.cstate = .busy) :
    step s = .next (State.drop { s with schedule := rest, response := some .written }) := by
  rw [step_cmd_write h]
  exact State.writeCmd_of_busy (s := { s with schedule := rest, response := some .written }) hbusy v

theorem step_cmd_write_convert {rest : List Turn}
    (h : s.schedule = .bus ⟨.write, 0x000#10, 4, 0x00000001#32⟩ :: rest)
    (hidle : s.cstate ≠ .busy) :
    step s = .next (State.accept .convert
      { s with schedule := rest, response := some .written }) := by
  rw [step_cmd_write h]
  exact State.writeCmd_convert (s := { s with schedule := rest, response := some .written }) hidle

/-- A scheduled completion completes the command in flight (10_state.md R53). -/
theorem step_complete {rest : List Turn} (h : s.schedule = .complete :: rest)
    (hbusy : s.cstate = .busy) : step s = .next (State.complete { s with schedule := rest }) :=
  (step_of_schedule h).trans (congrArg Host.Outcome.next (State.completionTurn_of_busy hbusy))

end

/-- Settles O48: before completion the word is dropped, and after it the word is accepted on the
operands then in ST and END. -/
theorem commandRaceHasBothOutcomes : Obligations.CommandRaceHasBothOutcomes := by
  unfold Obligations.CommandRaceHasBothOutcomes
  intro s hbusy _
  constructor
  · have hdrop := step_cmd_write_of_busy (v := 1#32) (rest := [.complete])
      (s := { s with schedule := [.bus ⟨.write, 0x000#10, 4, 1#32⟩, .complete] }) rfl hbusy
    have hcomplete := step_complete (rest := [])
      (s := State.drop { s with schedule := [.complete], response := some .written }) rfl hbusy
    refine ⟨_, run_two hdrop hcomplete, ?_⟩
    obtain ⟨-, hovr, -, -, hopL, hstL, hendL, -⟩ := State.complete_keeps
      { State.drop { s with schedule := [.complete], response := some .written } with
        schedule := [] }
    exact ⟨hovr, State.holdsResult_not_busy (State.complete_holds _), hopL, hstL, hendL⟩
  · have hcomplete := step_complete (rest := [.bus ⟨.write, 0x000#10, 4, 1#32⟩])
      (s := { s with schedule := [.complete, .bus ⟨.write, 0x000#10, 4, 1#32⟩] }) rfl hbusy
    obtain ⟨-, hovr, hst, hend, -, -, -, -, -, -, hsched⟩ :=
      State.complete_keeps { s with schedule := [.bus ⟨.write, 0x000#10, 4, 1#32⟩] }
    have haccept := step_cmd_write_convert hsched
      (State.holdsResult_not_busy (State.complete_holds _))
    exact ⟨_, run_two hcomplete haccept, hovr, rfl, rfl, hst, hend⟩

end Sys2Proof.Machine
end

section
/-! Accesses by absolute address (20_memory.md R71, R72): O8, O9. -/

namespace Sys2Proof.Machine

/-- Settles O8: subtracting the base gives the offset back, and the lanes make up the word again. -/
theorem accessInWindowIsItsTransaction : Obligations.AccessInWindowIsItsTransaction := by
  unfold Obligations.AccessInWindowIsItsTransaction
  intro s d off size v
  refine ⟨?_, Nat.mul_mod_right _ _⟩
  have hwindow : s.params.base ≤ s.params.base + off.toNat ∧
      s.params.base + off.toNat < s.params.base + 0x400 :=
    ⟨Nat.le_add_right _ _, Nat.add_lt_add_left off.isLt _⟩
  simp only [State.addrAccess, Access.toTxn, if_pos hwindow, Nat.add_sub_cancel_left,
    BitVec.ofNat_toNat, BitVec.setWidth_eq, ofLanes_toLanes]

/-- Settles O9: outside the window an access is no transaction of the block. -/
theorem accessOutsideWindowIsRefused : Obligations.AccessOutsideWindowIsRefused := by
  unfold Obligations.AccessOutsideWindowIsRefused
  intro s a hout
  have hwindow : ¬ (s.params.base ≤ a.addr ∧ a.addr < s.params.base + 0x400) := by omega
  simp only [State.addrAccess, Access.toTxn, if_neg hwindow]

end Sys2Proof.Machine
end

section
/-! Reads and writes of the registers by offset (20_memory.md R75, R76): O12 to O15. -/

namespace Sys2Proof.Machine

section
variable {s : State}

/-- A read of an undefined register draws (20_memory.md R75). -/
theorem State.busAccess_read_of_undefined {r : Reg} (h : s.regValue r = none) (d : Word) :
    s.busAccess ⟨.read, r.offset, 4, d⟩ = .next { s with
      response := some (.data (Config.draw s.draws)), draws := s.draws + 1 } := by
  simp only [State.busAccess, txnReg_offset, State.readReg, h, State.draw]

/-- While BUSY the result and the counts are undefined (10_state.md R41 to R43). -/
theorem State.regValue_results_of_busy (h : s.cstate = .busy) :
    s.regValue .result = none ∧ s.regValue .countA = none ∧ s.regValue .countB = none := by
  simp [State.regValue, (State.busy_eq_true s).2 h]

theorem State.regValue_results_of_not_busy (h : s.cstate ≠ .busy) :
    s.regValue .result = some s.resultWord ∧ s.regValue .countA = some (s.countA.setWidth 32) ∧
      s.regValue .countB = some (s.countB.setWidth 32) := by
  simp [State.regValue, (State.busy_eq_false s).2 h]

theorem State.resultWord_eq (s : State) :
    s.resultWord = if s.kind = .split then 1#32 else 0#32 := by
  rw [State.resultWord]
  cases s.kind <;> rfl

/-- The registers past the first four ignore writes (20_memory.md R76). -/
theorem State.writeReg_readOnly {r : Reg} (hr : r ∉ [Reg.cmd, Reg.status, Reg.st, Reg.fin])
    (v : Word) (s : State) : s.writeReg r v = .next s := by
  cases r
  case cmd | status | st | fin => exact absurd (by decide) hr
  all_goals rfl

theorem State.slotDefined_iff (s : State) (c : BitVec 6) (n : Fin 32) :
    s.slotDefined c n = true ↔ s.cstate = .done ∧ n.val < c.toNat := by
  simp [State.slotDefined]

/-- What slot `n` of a buffer `b` with count `c` shows: its entry when it is defined (10_state.md
R47). -/
def State.slotValue (s : State) (c : BitVec 6) (b : Vector Entry 32) (n : Fin 32) : Option Entry :=
  if s.slotDefined c n then some b[n] else none

theorem State.slotValue_of_defined {c : BitVec 6} {n : Fin 32}
    (h : s.cstate = .done ∧ n.val < c.toNat) (b : Vector Entry 32) :
    s.slotValue c b n = some b[n] :=
  if_pos ((s.slotDefined_iff c n).2 h)

theorem State.slotValue_of_undefined {c : BitVec 6} {n : Fin 32}
    (h : ¬ (s.cstate = .done ∧ n.val < c.toNat)) (b : Vector Entry 32) :
    s.slotValue c b n = none :=
  if_neg (mt (s.slotDefined_iff c n).1 h)

/-- The four registers of slot `n` read the fields of its entries. -/
theorem State.regValue_slots (s : State) (n : Fin 32) :
    s.regValue (.aPatt n) = (s.slotValue s.countA s.bufA n).map Entry.pattern ∧
      s.regValue (.aMask n) = (s.slotValue s.countA s.bufA n).map Entry.mask ∧
      s.regValue (.bPatt n) = (s.slotValue s.countB s.bufB n).map Entry.pattern ∧
      s.regValue (.bMask n) = (s.slotValue s.countB s.bufB n).map Entry.mask := by
  simp only [State.regValue, State.slotValue]
  cases s.slotDefined s.countA n <;> cases s.slotDefined s.countB n <;> exact ⟨rfl, rfl, rfl, rfl⟩

end

/-- Settles O12: ST and END store, and each has a defined value in every state. -/
theorem operandRegistersStoreAndReadBack : Obligations.OperandRegistersStoreAndReadBack := by
  unfold Obligations.OperandRegistersStoreAndReadBack
  intro s d v
  exact ⟨s.busAccess_write_of_ne_cmd (r := .st) (by decide) v,
    s.busAccess_write_of_ne_cmd (r := .fin) (by decide) v,
    State.busAccess_read_of_regValue (r := .st) rfl d,
    State.busAccess_read_of_regValue (r := .fin) rfl d⟩

/-- Settles O13: the three result registers have a value exactly outside BUSY. -/
theorem resultRegistersReadOrDraw : Obligations.ResultRegistersReadOrDraw := by
  unfold Obligations.ResultRegistersReadOrDraw
  intro s d
  refine ⟨State.busAccess_read_of_regValue (r := .cmd) rfl d, fun hidle => ?_, fun hbusy => ?_⟩
  · obtain ⟨hresult, hcountA, hcountB⟩ := State.regValue_results_of_not_busy hidle
    rw [← s.resultWord_eq, BitVec.ofNat_toNat, BitVec.ofNat_toNat]
    exact ⟨State.busAccess_read_of_regValue hresult d, State.busAccess_read_of_regValue hcountA d,
      State.busAccess_read_of_regValue hcountB d⟩
  · obtain ⟨hresult, hcountA, hcountB⟩ := State.regValue_results_of_busy hbusy
    simp only [List.forall_mem_cons]
    exact ⟨State.busAccess_read_of_undefined hresult d,
      State.busAccess_read_of_undefined hcountA d, State.busAccess_read_of_undefined hcountB d,
      nofun⟩

/-- Settles O14: the offsets are those of the slot's two registers, which have a value exactly where
the slot is defined. -/
theorem slotsReadOrDraw : Obligations.SlotsReadOrDraw := by
  unfold Obligations.SlotsReadOrDraw
  intro s n d
  obtain ⟨haPatt, haMask, hbPatt, hbMask⟩ := s.regValue_slots n
  refine ⟨fun h => ?_, fun h => ?_, fun h => ?_, fun h => ?_⟩
  · rw [State.slotValue_of_defined h] at haPatt haMask
    exact ⟨State.busAccess_read_of_regValue haPatt d, State.busAccess_read_of_regValue haMask d⟩
  · rw [State.slotValue_of_undefined h] at haPatt haMask
    simp only [List.forall_mem_cons]
    exact ⟨State.busAccess_read_of_undefined haPatt d,
      State.busAccess_read_of_undefined haMask d, nofun⟩
  · rw [State.slotValue_of_defined h] at hbPatt hbMask
    exact ⟨State.busAccess_read_of_regValue hbPatt d, State.busAccess_read_of_regValue hbMask d⟩
  · rw [State.slotValue_of_undefined h] at hbPatt hbMask
    simp only [List.forall_mem_cons]
    exact ⟨State.busAccess_read_of_undefined hbPatt d,
      State.busAccess_read_of_undefined hbMask d, nofun⟩

/-- Settles O15: the offset holds a register, which is none of the four below 0x010; a store to any
other does nothing. -/
theorem readOnlyRegistersIgnoreWrites : Obligations.ReadOnlyRegistersIgnoreWrites := by
  unfold Obligations.ReadOnlyRegistersIgnoreWrites
  intro s off v haligned hrange
  have hsome : decodeOffset off ≠ none := by
    rw [ne_eq, decodeOffset_eq_none_iff, reservedOff_iff]
    omega
  obtain ⟨r, hr⟩ := Option.ne_none_iff_exists'.1 hsome
  obtain rfl := eq_offset_of_decodeOffset hr
  have hlow : ∀ r ∈ [Reg.cmd, Reg.status, Reg.st, Reg.fin], r.offset.toNat < 0x010 := by decide
  have hreadOnly : r ∉ [Reg.cmd, Reg.status, Reg.st, Reg.fin] := fun hmem => by
    have := hlow r hmem
    omega
  exact (s.busAccess_write r v).trans (State.writeReg_readOnly hreadOnly v _)

end Sys2Proof.Machine
end

section
/-! The command write (10_state.md R51, R52; 30_encoding.md R105, R106): O16, O18, O21, O22, O24. -/

namespace Sys2Proof.Machine

section
variable {s u : State} {i : Instr}

/-- A command that the hardware has is accepted when not BUSY (10_state.md R51). -/
theorem exec_of_wf (hidle : s.cstate ≠ .busy) (hwf : i.wf s.params = true) :
    exec i s = .next (s.accept i) := by
  rcases exec_cases i s with ⟨hbusy, -⟩ | ⟨-, -, h⟩ | ⟨-, habsent, -⟩
  · exact absurd hbusy hidle
  · exact h
  · exact absurd (hwf.symm.trans habsent) nofun

/-- A command that the hardware lacks is an illegal word (30_encoding.md R105). -/
theorem exec_of_not_wf (hidle : s.cstate ≠ .busy) (hwf : i.wf s.params = false) :
    exec i s = .next (s.errorEntry .illegalCmd) := by
  rcases exec_cases i s with ⟨hbusy, -⟩ | ⟨-, hpresent, -⟩ | ⟨-, -, h⟩
  · exact absurd hbusy hidle
  · exact absurd (hpresent.symm.trans hwf) nofun
  · exact h

theorem State.writeCmd_of_decode {v : Word} (h : decode (toLanes v) = .ok i) (s : State) :
    s.writeCmd v = exec i s := by
  simp only [State.writeCmd, h]

theorem State.writeCmd_encode (i : Instr) (s : State) : s.writeCmd (encode i) = exec i s :=
  State.writeCmd_of_decode (decode_encodeBytes i) s

/-- A word that is no command, or none of this hardware's, is ILLEGAL_CMD when not BUSY. -/
theorem State.writeCmd_illegal {v : Word} (hidle : s.cstate ≠ .busy)
    (hv : ¬ (v = 0x00000001#32 ∨ (v = 0x00000002#32 ∧ s.params.hasSelect = true))) :
    s.writeCmd v = .next (s.errorEntry .illegalCmd) := by
  rcases State.writeCmd_cases v s with ⟨hbusy, -⟩ | ⟨-, h1, -⟩ | ⟨-, h2, hsel, -⟩ | ⟨-, -, -, h⟩
  · exact absurd hbusy hidle
  · exact absurd (.inl h1) hv
  · exact absurd (.inr ⟨h2, hsel⟩) hv
  · exact h

/-- A running command leaves nothing of an earlier result to read (10_state.md R41 to R43, R47). -/
theorem State.regValue_accept_undefined (s : State) (i : Instr) :
    (∀ r ∈ [Reg.result, Reg.countA, Reg.countB], (s.accept i).regValue r = none) ∧
      ∀ n : Fin 32, (s.accept i).regValue (.aPatt n) = none ∧
        (s.accept i).regValue (.aMask n) = none ∧ (s.accept i).regValue (.bPatt n) = none ∧
        (s.accept i).regValue (.bMask n) = none := by
  obtain ⟨hresult, hcountA, hcountB⟩ := State.regValue_results_of_busy (s.accept_cstate i)
  refine ⟨?_, State.regValue_slots_of_ne_done (by simp)⟩
  simp only [List.forall_mem_cons]
  exact ⟨hresult, hcountA, hcountB, nofun⟩

/-- A read of STATUS from STATE and ERR, without and with OVR (10_state.md R38). -/
theorem State.regValue_status {c : CmdState} {e : ErrCode} {lo hi : Word} (hc : s.cstate = c)
    (he : s.err = e) (hlo : c.bits.setWidth 32 ||| (e.bits.setWidth 32 <<< 4) = lo)
    (hhi : lo ||| 0x100#32 = hi) : s.regValue .status = some (if s.ovr then hi else lo) := by
  rw [State.regValue, State.statusWord, hc, he, hlo, ← hhi]
  cases s.ovr
  · exact congrArg some BitVec.or_zero
  · rfl

/-- The registers that read alike where the operands and the parameters agree. -/
theorem State.regValue_operands_congr (hparams : u.params = s.params) (hst : u.stReg = s.stReg)
    (hend : u.endReg = s.endReg) :
    u.capsWord = s.capsWord ∧
      ∀ r ∈ [Reg.cmd, Reg.st, Reg.fin, Reg.caps], u.regValue r = s.regValue r := by
  have hcaps : u.capsWord = s.capsWord := by simp only [State.capsWord, hparams]
  refine ⟨hcaps, ?_⟩
  simp only [List.forall_mem_cons]
  exact ⟨rfl, congrArg some hst, congrArg some hend, congrArg some hcaps, nofun⟩

end

/-- Settles O18: the cases of a command write. -/
theorem commandDecisionReadsOnlyStateAndPresence :
    Obligations.CommandDecisionReadsOnlyStateAndPresence := by
  unfold Obligations.CommandDecisionReadsOnlyStateAndPresence
  intro s v
  rcases State.writeCmd_cases v s with ⟨hbusy, h⟩ | ⟨hidle, hv, h⟩ | ⟨hidle, hv, hsel, h⟩ |
    ⟨hidle, hv, hsel, h⟩
  · exact ⟨_, h, .inl ⟨hbusy, rfl⟩⟩
  · exact ⟨_, h, .inr (.inl ⟨hidle, hv, rfl⟩)⟩
  · exact ⟨_, h, .inr (.inr (.inl ⟨hidle, hv, hsel, rfl⟩))⟩
  · exact ⟨_, h, .inr (.inr (.inr ⟨hidle, hv, hsel, rfl⟩))⟩

/-- Settles O16: a legal word is the encoding of a command the hardware has, and is accepted; any
other is error entry. -/
theorem commandWriteWhenNotBusy : Obligations.CommandWriteWhenNotBusy := by
  unfold Obligations.CommandWriteWhenNotBusy
  intro s v hidle
  have hwrite := s.busAccess_write .cmd v
  constructor
  · intro hlegal
    have haccept : ∀ i, v = encode i → i.wf s.params = true →
        s.busAccess ⟨.write, 0x000#10, 4, v⟩ =
          .next (State.accept i { s with response := some .written }) := by
      rintro i rfl hwf
      exact hwrite.trans ((State.writeCmd_encode i _).trans (exec_of_wf hidle hwf))
    rcases hlegal with rfl | ⟨rfl, hsel⟩
    · exact ⟨_, haccept .convert rfl rfl, rfl, rfl, State.regValue_accept_undefined _ _⟩
    · exact ⟨_, haccept .select rfl hsel, rfl, rfl, State.regValue_accept_undefined _ _⟩
  · intro hillegal
    exact ⟨_, hwrite.trans (State.writeCmd_illegal
      (s := { s with response := some .written }) hidle hillegal), rfl, rfl,
      State.regValue_slots_of_ne_done nofun⟩

/-- Settles O21: without HAS_SELECT the command is not one of the hardware's. -/
theorem absentSelectIsIllegal : Obligations.AbsentSelectIsIllegal := by
  unfold Obligations.AbsentSelectIsIllegal
  intro s hidle habsent
  exact ⟨_, exec_of_not_wf hidle habsent, rfl,
    State.regValue_status (s := s.errorEntry .illegalCmd) (c := .error) (e := .illegalCmd) rfl rfl
      (by decide) (by decide)⟩

/-- Settles O22: a command write is a drop, an acceptance or an error entry, and each leaves its
part of the state. -/
theorem commandFrames : Obligations.CommandFrames := by
  unfold Obligations.CommandFrames
  intro i s t hexec
  rcases exec_cases i s with ⟨hbusy, h⟩ | ⟨hidle, hwf, h⟩ | ⟨hidle, hwf, h⟩
  all_goals
    rw [h] at hexec
    cases hexec
    refine ⟨⟨rfl, rfl, rfl, rfl, rfl, rfl, rfl, rfl, rfl,
      State.regValue_operands_congr rfl rfl rfl⟩, ?_⟩
  · simp [hbusy]
  · simp [hidle, hwf]
  · simp [hidle, hwf]

/-- Settles O24: the access reaches CMD, and a command word runs its command. -/
theorem stepRunsTheDecodedCommand : Obligations.StepRunsTheDecodedCommand := by
  unfold Obligations.StepRunsTheDecodedCommand
  intro s v i rest hsched hdecode
  rw [step_cmd_write hsched, State.writeCmd_of_decode hdecode]

end Sys2Proof.Machine
end

section
/-! The result of SELECT by that of the direct decomposition (41_select.md R162, R163, R168): O39,
O40. -/

namespace Sys2Proof.Machine

section
variable {st fin : Word} {c : FailCode}

/-- SELECT fails where the direct decomposition does (41_select.md R162). -/
theorem selectCmd_of_fail (h : convert st fin = .fail c) :
    selectCmd st fin = .fail c := by
  simp only [selectCmd, h]

/-- SELECT from address 0 is the direct decomposition (41_select.md R163). -/
theorem selectCmd_zero {d : List Entry} (h : convert 0#32 fin = .ok d) :
    selectCmd 0#32 fin = .direct d := by
  simp only [selectCmd, h, if_true]

theorem chooseRules_ne_fail (d r a : List Entry) (c : FailCode) : chooseRules d r a ≠ .fail c := by
  rw [chooseRules]
  split <;> exact nofun

/-- SELECT fails exactly when the direct decomposition fails: the alternatives start at address 0
and succeed (41_select.md R162, R168). -/
theorem selectCmd_eq_fail_iff : selectCmd st fin = .fail c ↔ convert st fin = .fail c := by
  refine ⟨fun h => ?_, selectCmd_of_fail⟩
  rcases selectCmd_cases st fin with ⟨c', hconv, hsel⟩ | ⟨d, -, -, hsel⟩ | ⟨d, c', -, -, -, halt⟩ |
    ⟨d, r, a, -, -, -, -, hsel⟩
  · rw [hsel] at h
    cases h
    exact hconv
  · exact absurd (hsel.symm.trans h) nofun
  · obtain ⟨r, hr⟩ := exists_convert_zero_ok (st - 1#32)
    obtain ⟨a, ha⟩ := exists_convert_zero_ok fin
    rw [hr, ha] at halt
    exact absurd halt (by simp)
  · exact absurd (hsel.symm.trans h) (chooseRules_ne_fail d r a c)

end

/-- Settles O39: both alternatives start at address 0, and a list of `convert` has at most CAPACITY
entries. -/
theorem selectFailsExactlyAsConvert : Obligations.SelectFailsExactlyAsConvert := by
  unfold Obligations.SelectFailsExactlyAsConvert
  intro st fin c
  have zero : ∀ x, ∃ l, convert 0#32 x = .ok l ∧ l.length ≤ 32 := fun x => by
    obtain ⟨l, hl⟩ := exists_convert_zero_ok x
    exact ⟨l, hl, convert_ok_length _ _ _ hl⟩
  exact ⟨selectCmd_eq_fail_iff, zero fin, fun _ => zero _⟩

/-- Settles O40: the direct decomposition from address 0 succeeds, and SELECT then has no
alternative. -/
theorem selectFromZeroIsDirect : Obligations.SelectFromZeroIsDirect := by
  unfold Obligations.SelectFromZeroIsDirect
  intro x
  obtain ⟨l, hl⟩ := exists_convert_zero_ok x
  exact ⟨l, selectCmd_zero hl, hl⟩

end Sys2Proof.Machine
end

section
/-! Completion (10_state.md R53): what it leaves, and what a command shows when it is over: O19,
O20, O23, O51. -/

namespace Sys2Proof.Machine

section
variable {s s' : State}

/-- Write-back leaves the slots past the counts it writes (log entry 25). -/
theorem State.writeBack_slots (s : State) {r : CmdResult} (hfits : r.fits) (n : Fin 32) :
    ((s.writeBack r).countA.toNat ≤ n.val → (s.writeBack r).bufA[n] = s.bufA[n]) ∧
      ((s.writeBack r).countB.toNat ≤ n.val → (s.writeBack r).bufB[n] = s.bufB[n]) := by
  cases r with
  | direct l =>
    refine ⟨fun hn => ?_, fun _ => rfl⟩
    rw [State.writeBack_direct_countA, count_toNat l hfits] at hn
    exact fillBuffer_keeps l s.bufA n n.isLt hn
  | split j k =>
    obtain ⟨hj, hk⟩ := hfits
    refine ⟨fun hn => ?_, fun hn => ?_⟩
    · rw [State.writeBack_split_countA, count_toNat j hj] at hn
      exact fillBuffer_keeps j s.bufA n n.isLt hn
    · rw [State.writeBack_split_countB, count_toNat k hk] at hn
      exact fillBuffer_keeps k s.bufB n n.isLt hn
  | fail c => exact ⟨fun _ => rfl, fun _ => rfl⟩

/-- A command that is accepted and completes holds its result, and leaves the other registers
(10_state.md R53, R54). -/
theorem State.accept_complete (i : Instr) (s : State) :
    State.runTurn .complete (s.accept i) = .next (s.accept i).complete ∧
      (s.accept i).complete.holdsResult (computeResult i s.stReg s.endReg) ∧
      (s.accept i).complete.stReg = s.stReg ∧ (s.accept i).complete.endReg = s.endReg ∧
      (s.accept i).complete.ovr = s.ovr ∧ (s.accept i).complete.capsWord = s.capsWord := by
  obtain ⟨hparams, hovr, hst, hend, -⟩ := (s.accept i).complete_keeps
  exact ⟨congrArg Host.Outcome.next (State.completionTurn_of_busy (s.accept_cstate i)),
    (s.accept i).complete_holds, hst, hend, hovr,
    (State.regValue_operands_congr hparams hst hend).1⟩

/-- STATUS while a command runs (10_state.md R38). -/
theorem State.regValue_status_accept (i : Instr) (s : State) :
    (s.accept i).regValue .status = some (if s.ovr then 0x101#32 else 0x001#32) :=
  State.regValue_status (c := .busy) (e := .none) rfl rfl (by decide) (by decide)

/-- STATUS after a result that is no failure. -/
theorem State.regValue_status_of_success {r : CmdResult} (h : s.holdsResult r)
    (hr : ∀ c, r ≠ .fail c) :
    s.regValue .status = some (if s.ovr then 0x102#32 else 0x002#32) := by
  obtain ⟨hstate, herr⟩ : s.cstate = .done ∧ s.err = .none := by
    cases r with
    | direct l | split j k =>
      obtain ⟨hstate, herr, -⟩ := h
      exact ⟨hstate, herr⟩
    | fail c => exact absurd rfl (hr c)
  exact State.regValue_status hstate herr (by decide) (by decide)

/-- STATUS after RANGE_TOO_LARGE (60_exceptions.md R181). -/
theorem State.regValue_status_of_rangeTooLarge (h : s.holdsResult (.fail .rangeTooLarge)) :
    s.regValue .status = some (if s.ovr then 0x113#32 else 0x013#32) := by
  obtain ⟨hstate, herr, -⟩ := h
  exact State.regValue_status (e := .rangeTooLarge) hstate herr (by decide) (by decide)

/-- STATUS after CAPACITY_EXCEEDED (60_exceptions.md R182). -/
theorem State.regValue_status_of_capacityExceeded (h : s.holdsResult (.fail .capacityExceeded)) :
    s.regValue .status = some (if s.ovr then 0x123#32 else 0x023#32) := by
  obtain ⟨hstate, herr, -⟩ := h
  exact State.regValue_status (e := .capacityExceeded) hstate herr (by decide) (by decide)

end

/-- Settles O23: completion is the write-back of a result that fits the buffers. -/
theorem completionFrame : Obligations.CompletionFrame := by
  unfold Obligations.CompletionFrame
  intro s
  obtain ⟨hparams, hovr, hst, hend, hopL, hstL, hendL, hdraws, hresp, hhost, hsched⟩ :=
    s.complete_keeps
  have hslots := s.writeBack_slots (computeResult_fits s.opL s.stL s.endL)
  exact ⟨hparams, hst, hend, hovr, hopL, hstL, hendL, hdraws, hresp, hhost, hsched,
    fun n => (hslots n).1, fun n => (hslots n).2⟩

/-- Settles O19: CONVERT is accepted, and its completion holds the result of `convert`. -/
theorem convertRunsToItsResult : Obligations.ConvertRunsToItsResult := by
  unfold Obligations.ConvertRunsToItsResult
  intro s hidle
  obtain ⟨hturn, hres, hst, hend, hovr, hcaps⟩ := State.accept_complete .convert s
  have hok : ∀ l, convert s.stReg s.endReg = .ok l →
      (s.accept .convert).complete.holdsResult (.direct l) := fun l h =>
    convertCmd_of_ok h ▸ hres
  have hfail : ∀ c, convert s.stReg s.endReg = .fail c →
      (s.accept .convert).complete.holdsResult (.fail c) := fun c h =>
    convertCmd_of_fail h ▸ hres
  refine ⟨_, _, exec_of_wf hidle rfl, rfl, rfl, rfl, rfl, rfl, State.regValue_status_accept _ s,
    hturn, fun l h => ⟨hok l h, ?_⟩, hfail, fun h => ?_, fun h => ?_, hst, hend, hovr, hcaps⟩ <;>
    rw [← hovr]
  · exact State.regValue_status_of_success (hok l h) nofun
  · exact State.regValue_status_of_rangeTooLarge (hfail _ h)
  · exact State.regValue_status_of_capacityExceeded (hfail _ h)

/-- Settles O20: SELECT is accepted where the hardware has it, and its completion holds the result
of `selectCmd`. -/
theorem selectRunsToItsResult : Obligations.SelectRunsToItsResult := by
  unfold Obligations.SelectRunsToItsResult
  intro s hidle hsel
  obtain ⟨hturn, hres, hst, hend, hovr, hcaps⟩ := State.accept_complete .select s
  have hfail : ∀ c, convert s.stReg s.endReg = .fail c →
      (s.accept .select).complete.holdsResult (.fail c) := fun c h =>
    selectCmd_of_fail h ▸ hres
  refine ⟨_, _, exec_of_wf hidle hsel, rfl, rfl, rfl, rfl, rfl, State.regValue_status_accept _ s,
    hturn, hfail, fun h => ?_, fun h => ?_, fun d hd => ⟨?_, ?_, ?_⟩, hst, hend, hovr, hcaps⟩
  · rw [← hovr]
    exact State.regValue_status_of_rangeTooLarge (hfail _ h)
  · rw [← hovr]
    exact State.regValue_status_of_capacityExceeded (hfail _ h)
  · rw [← hovr]
    refine State.regValue_status_of_success hres fun c hc => ?_
    exact absurd (hd.symm.trans (selectCmd_eq_fail_iff.1 hc)) nofun
  · intro h0
    rw [h0] at hd
    exact selectCmd_zero hd ▸ h0 ▸ hres
  · intro hne
    obtain ⟨r, hr⟩ := exists_convert_zero_ok (s.stReg - 1#32)
    obtain ⟨a, ha⟩ := exists_convert_zero_ok s.endReg
    have hchoose := selectCmd_of_ok hne hd hr ha
    refine ⟨r, a, hr, ha, fun hlt => ?_, fun hge => ?_⟩
    · exact (hchoose.trans (chooseRules_of_lt hlt)) ▸ hres
    · exact (hchoose.trans (chooseRules_of_le (Nat.not_lt.1 hge))) ▸ hres

section
variable {s s' : State}

theorem bufferHolds_unique {b b' : Vector Entry 32} {l : List Entry} (h : bufferHolds b l)
    (h' : bufferHolds b' l) (n : Fin 32) (hn : n.val < l.length) : b[n] = b'[n] :=
  (h n n.isLt hn).trans (h' n n.isLt hn).symm

/-- Two states agree on what a read of a result shows: STATE, ERR, RESULT, the counts and the slots
below them. -/
structure State.SameResultReads (s s' : State) : Prop where
  cstate : s.cstate = s'.cstate
  err : s.err = s'.err
  kind : s.kind = s'.kind
  countA : s.countA = s'.countA
  countB : s.countB = s'.countB
  slotA : ∀ n : Fin 32, n.val < s.countA.toNat → s.bufA[n] = s'.bufA[n]
  slotB : ∀ n : Fin 32, n.val < s.countB.toNat → s.bufB[n] = s'.bufB[n]

/-- A held result decides what a read of it shows (10_state.md R53). -/
theorem State.holdsResult_unique {r : CmdResult} (h : s.holdsResult r) (h' : s'.holdsResult r) :
    s.SameResultReads s' := by
  cases r with
  | direct l =>
    obtain ⟨hstate, herr, hkind, -, hcountA, hcountB, hbuf⟩ := h
    obtain ⟨hstate', herr', hkind', -, hcountA', hcountB', hbuf'⟩ := h'
    exact ⟨hstate.trans hstate'.symm, herr.trans herr'.symm, hkind.trans hkind'.symm,
      BitVec.eq_of_toNat_eq (hcountA.trans hcountA'.symm), hcountB.trans hcountB'.symm,
      fun n hn => bufferHolds_unique hbuf hbuf' n (hcountA ▸ hn),
      fun n hn => absurd hn (by simp [hcountB])⟩
  | split j k =>
    obtain ⟨hstate, herr, hkind, -, -, hcountA, hcountB, hbufA, hbufB⟩ := h
    obtain ⟨hstate', herr', hkind', -, -, hcountA', hcountB', hbufA', hbufB'⟩ := h'
    exact ⟨hstate.trans hstate'.symm, herr.trans herr'.symm, hkind.trans hkind'.symm,
      BitVec.eq_of_toNat_eq (hcountA.trans hcountA'.symm),
      BitVec.eq_of_toNat_eq (hcountB.trans hcountB'.symm),
      fun n hn => bufferHolds_unique hbufA hbufA' n (hcountA ▸ hn),
      fun n hn => bufferHolds_unique hbufB hbufB' n (hcountB ▸ hn)⟩
  | fail c =>
    obtain ⟨hstate, herr, hkind, hcountA, hcountB⟩ := h
    obtain ⟨hstate', herr', hkind', hcountA', hcountB'⟩ := h'
    exact ⟨hstate.trans hstate'.symm, herr.trans herr'.symm, hkind.trans hkind'.symm,
      hcountA.trans hcountA'.symm, hcountB.trans hcountB'.symm,
      fun n hn => absurd hn (by simp [hcountA]), fun n hn => absurd hn (by simp [hcountB])⟩

namespace State.SameResultReads

variable (h : s.SameResultReads s')
include h

theorem slotValue_eq {c : BitVec 6} {b b' : Vector Entry 32} {n : Fin 32}
    (hbuf : n.val < c.toNat → b[n] = b'[n]) : s.slotValue c b n = s'.slotValue c b' n := by
  by_cases hdef : s.cstate = .done ∧ n.val < c.toNat
  · rw [State.slotValue_of_defined hdef, State.slotValue_of_defined (h.cstate ▸ hdef),
      hbuf hdef.2]
  · rw [State.slotValue_of_undefined hdef, State.slotValue_of_undefined (h.cstate ▸ hdef)]

/-- The slots of both buffers read alike. -/
theorem regValue_slots_eq (n : Fin 32) :
    s.regValue (.aPatt n) = s'.regValue (.aPatt n) ∧
      s.regValue (.aMask n) = s'.regValue (.aMask n) ∧
      s.regValue (.bPatt n) = s'.regValue (.bPatt n) ∧
      s.regValue (.bMask n) = s'.regValue (.bMask n) := by
  obtain ⟨haPatt, haMask, hbPatt, hbMask⟩ := s.regValue_slots n
  obtain ⟨haPatt', haMask', hbPatt', hbMask'⟩ := s'.regValue_slots n
  rw [← h.countA, ← h.slotValue_eq (h.slotA n)] at haPatt' haMask'
  rw [← h.countB, ← h.slotValue_eq (h.slotB n)] at hbPatt' hbMask'
  exact ⟨haPatt.trans haPatt'.symm, haMask.trans haMask'.symm, hbPatt.trans hbPatt'.symm,
    hbMask.trans hbMask'.symm⟩

/-- With the operand registers, OVR and CAPS alike too, every register reads alike. -/
theorem regValue_eq (hst : s.stReg = s'.stReg) (hend : s.endReg = s'.endReg)
    (hovr : s.ovr = s'.ovr) (hcaps : s.capsWord = s'.capsWord) (r : Reg) :
    s.regValue r = s'.regValue r := by
  have hbusy : s.busy = s'.busy := congrArg (· == .busy) h.cstate
  cases r with
  | cmd => rfl
  | status => simp only [State.regValue, State.statusWord, h.cstate, h.err, hovr]
  | st => exact congrArg some hst
  | fin => exact congrArg some hend
  | result => rw [State.regValue, State.regValue, hbusy, State.resultWord, h.kind, State.resultWord]
  | countA => rw [State.regValue, State.regValue, hbusy, h.countA]
  | countB => rw [State.regValue, State.regValue, hbusy, h.countB]
  | caps => exact congrArg some hcaps
  | aPatt n | aMask n | bPatt n | bMask n =>
    obtain ⟨haPatt, haMask, hbPatt, hbMask⟩ := h.regValue_slots_eq n
    assumption

end State.SameResultReads

end

/-- Settles O51: both runs hold the result of the same operands, which decides every read of it. -/
theorem resultsDoNotDependOnHistory : Obligations.ResultsDoNotDependOnHistory := by
  unfold Obligations.ResultsDoNotDependOnHistory
  intro i s s' _ _ hst hend hovr hsel
  obtain ⟨-, hres, hst1, hend1, hovr1, hcaps1⟩ := State.accept_complete i s
  obtain ⟨-, hres', hst2, hend2, hovr2, hcaps2⟩ := State.accept_complete i s'
  rw [← hst, ← hend] at hres'
  refine (State.holdsResult_unique hres hres').regValue_eq ?_ ?_ ?_ ?_
  · rw [hst1, hst2, hst]
  · rw [hend1, hend2, hend]
  · rw [hovr1, hovr2, hovr]
  · rw [hcaps1, hcaps2, State.capsWord, State.capsWord, hsel]

end Sys2Proof.Machine
end

section
/-! Turns that never stop the block, and those that stop (60_exceptions.md R180, R201;
70_reset_and_hazards.md R213, R214): O52, O54, O55. -/

namespace Sys2Proof.Machine

/-- Settles O52: a bus access is answered whatever it is, the other turns have one effect each, and
without a command in flight the engine's turns have none. -/
theorem blockNeverStops : Obligations.BlockNeverStops := by
  unfold Obligations.BlockNeverStops
  intro s
  refine ⟨fun t => ?_, ⟨_, rfl⟩, ⟨_, rfl⟩, ⟨_, rfl⟩, fun hidle => ?_, fun hidle => ⟨?_, ?_⟩⟩
  · obtain ⟨_, _, u, hu, -⟩ := State.busAccess_effect t s
    exact ⟨u, hu⟩
  · exact ⟨_, (s.busAccess_write .cmd 1#32).trans
      (State.writeCmd_convert (s := { s with response := some .written }) hidle), rfl, rfl⟩
  · exact congrArg Host.Outcome.next (State.cycleTurn_of_not_busy hidle)
  · exact congrArg Host.Outcome.next (State.completionTurn_of_not_busy hidle)

/-- Settles O54: the turn that holds an access and a reset is a fault. -/
theorem accessDuringResetFaults : Obligations.AccessDuringResetFaults := by
  unfold Obligations.AccessDuringResetFaults
  intro s t rest hsched
  exact step_of_schedule hsched

/-- Settles O55: CONVERT on the operands 0 and 0 is accepted, and the step on an empty schedule
completes it with the block of one address. -/
theorem firstCommandAfterReset : Obligations.FirstCommandAfterReset := by
  unfold Obligations.FirstCommandAfterReset
  have haccept := step_cmd_write_convert (s := State.reset.withFetchWord 32 1) (rest := []) rfl
    (by decide)
  exact ⟨_, run_two haccept rfl, by decide +kernel, by decide +kernel, by decide +kernel,
    by decide +kernel⟩

end Sys2Proof.Machine
end

section
/-! The lines of the host's program (30_encoding.md R108; 60_exceptions.md R184): O25, O56, O57,
O58. -/

namespace Sys2Proof.Machine

section
variable {s u : State}

theorem State.hostTurn_of_line {x : HostLine} (h : s.host.prog[s.host.pc]? = some x) :
    s.hostTurn = s.hostLine x := by
  simp only [State.hostTurn, h]

/-- After a write the host goes on with its next line. -/
theorem State.hostAccess_write {r : Reg} {v : Word}
    (h : State.writeReg r v { s with response := some .written } = .next u) :
    s.hostAccess ⟨.write, r.offset, 4, v⟩ none = .next u.hostNext := by
  obtain ⟨u', hu', hresp⟩ := State.writeReg_response r v { s with response := some .written }
  rw [h] at hu'
  cases hu'
  simp only [State.hostAccess, State.busAccess_write, h, State.hostAnswer, hresp]

/-- After a read the host has the data in its variable and goes on with its next line. -/
theorem State.hostAccess_read {r : Reg} {n : Nat} {d : Word}
    (h : s.busAccess ⟨.read, r.offset, 4, 0#32⟩ =
      .next { s with response := some (.data d), draws := n }) (v : Nat) :
    s.hostAccess ⟨.read, r.offset, 4, 0#32⟩ (some v) =
      .next (State.hostSet v d { s with response := some (.data d), draws := n }) := by
  simp only [State.hostAccess, h, State.hostAnswer]

/-- A write line, by name or raw, does the write and lets the host go on (20_memory.md R76). -/
theorem State.hostLine_write {x : HostLine} {r : Reg} {v : Word}
    (hx : x = .wr r v ∨ x = .wrRaw r.offset v)
    (h : State.writeReg r v { s with response := some .written } = .next u) :
    s.hostLine x = .next u.hostNext := by
  rcases hx with rfl | rfl
  · exact State.hostAccess_write h
  · exact State.hostAccess_write h

/-- The host has its turn when it is scheduled, and on an empty schedule when not BUSY (log
entry 5). -/
theorem step_host {rest : List Turn}
    (h : s.schedule = .host :: rest ∨ (s.schedule = [] ∧ rest = [] ∧ s.cstate ≠ .busy)) :
    step s = State.hostTurn { s with schedule := rest } := by
  rcases h with hsched | ⟨hsched, rfl, hidle⟩
  · exact step_of_schedule hsched
  · have hturn : s.nextTurn = .host := by
      simp only [State.nextTurn, hsched, State.defaultTurn, (State.busy_eq_false s).2 hidle,
        Bool.false_eq_true, if_false]
    rw [step_eq, hturn, hsched]
    rfl

/-- The host's turn does its next line. -/
theorem step_host_line {x : HostLine} {rest : List Turn}
    (h : s.schedule = .host :: rest ∨ (s.schedule = [] ∧ rest = [] ∧ s.cstate ≠ .busy))
    (hline : s.host.prog[s.host.pc]? = some x) :
    step s = State.hostLine x { s with schedule := rest } :=
  (step_host h).trans (State.hostTurn_of_line hline)

theorem exec_next (i : Instr) (s : State) : ∃ u, exec i s = .next u := by
  rcases exec_cases i s with ⟨-, h⟩ | ⟨-, -, h⟩ | ⟨-, -, h⟩
  all_goals exact ⟨_, h⟩

theorem State.rejectCmd_of_busy (h : s.cstate = .busy) : s.rejectCmd = s.drop :=
  if_pos ((State.busy_eq_true s).2 h)

theorem State.rejectCmd_of_not_busy (h : s.cstate ≠ .busy) :
    s.rejectCmd = s.errorEntry .illegalCmd :=
  if_neg (by rw [State.busy_eq_true]; exact h)

theorem State.writeCmd_of_decode_error {v : Word} {e : DecodeError}
    (h : decode (toLanes v) = .error e) (s : State) : s.writeCmd v = .next s.rejectCmd := by
  simp only [State.writeCmd, h]

/-- A host access that addresses no register is a fault of the host's program
(60_exceptions.md R184). -/
theorem State.hostAccess_of_not_wf {t : Txn} (ht : ¬ t.wf = true) (dst : Option Nat) (s : State) :
    s.hostAccess t dst = .fault .busError := by
  simp only [State.hostAccess, State.busAccess_of_not_wf ht, State.hostAnswer]

theorem State.hostGoto_of_findLabel {l k : Nat} (h : findLabel l s.host.prog = some k) :
    s.hostGoto l = .next { s with host := { s.host with pc := k } } := by
  simp only [State.hostGoto, h]

end

/-- Settles O25: the line's write answers a next state, which each register's rule gives, and the
host goes on from it. -/
theorem hostLineRunsTheDecodedCommand : Obligations.HostLineRunsTheDecodedCommand := by
  unfold Obligations.HostLineRunsTheDecodedCommand
  intro s s0 x r v rest hturn hline hx hs0
  have hwrite : ∀ u, s0.writeReg r v = .next u → step s = .next u.hostNext := by
    intro u hu
    rw [hs0] at hu
    exact (step_host_line hturn hline).trans (State.hostLine_write hx hu)
  have hstate : s0.cstate = s.cstate := hs0 ▸ rfl
  have hovr : s0.ovr = s.ovr := hs0 ▸ rfl
  refine ⟨?_, ?_, ?_, ?_, ?_, fun hr => hwrite _ (State.writeReg_readOnly hr v s0)⟩
  · rintro rfl i hdecode
    obtain ⟨u, hu⟩ := exec_next i s0
    exact ⟨u, hu, hwrite u ((State.writeCmd_of_decode hdecode s0).trans hu)⟩
  · rintro rfl e hdecode
    have hreject := hwrite _ (State.writeCmd_of_decode_error hdecode s0)
    refine ⟨fun hbusy => ?_, fun hidle => ?_⟩
    · rw [hreject, State.rejectCmd_of_busy (hstate.trans hbusy)]
      rfl
    · rw [hreject, State.rejectCmd_of_not_busy (hstate ▸ hidle)]
      rfl
  · rintro rfl
    exact hwrite _ rfl
  · rintro rfl
    exact hwrite _ rfl
  · rintro rfl
    rw [← hovr, ← ovrAfterStatusWrite_eq]
    exact hwrite _ rfl

/-- Settles O56: the read answers the register's value or a draw, and the host puts it in its
variable. -/
theorem hostReadSetsItsVariable : Obligations.HostReadSetsItsVariable := by
  unfold Obligations.HostReadSetsItsVariable
  intro s x r v hline hx
  obtain ⟨d, n, hread, hvalue, hdraw⟩ : ∃ d n,
      s.busAccess ⟨.read, r.offset, 4, 0#32⟩ =
        .next { s with response := some (.data d), draws := n } ∧
      (∀ y, s.regValue r = some y → d = y ∧ n = s.draws) ∧
      (s.regValue r = none → d = Config.draw s.draws ∧ n = s.draws + 1) := by
    cases hreg : s.regValue r with
    | some y =>
      exact ⟨y, s.draws, State.busAccess_read_of_regValue hreg _,
        fun _ h => ⟨Option.some.inj h, rfl⟩, nofun⟩
    | none =>
      exact ⟨_, _, State.busAccess_read_of_undefined hreg _, nofun, fun _ => ⟨rfl, rfl⟩⟩
  have hset := State.hostAccess_read hread v
  have hturn : s.hostTurn =
      .next (State.hostSet v d { s with response := some (.data d), draws := n }) := by
    rw [State.hostTurn_of_line hline]
    rcases hx with rfl | rfl
    · exact hset
    · exact hset
  exact ⟨_, d, n, hturn, hvalue, hdraw, readVar_writeVar_self v d _,
    fun w hw => readVar_writeVar_ne v w d _ hw, rfl, rfl, rfl⟩

/-- Settles O57: none of these lines makes an access, and a branch compares one variable. -/
theorem hostLinesWithoutBusEffect : Obligations.HostLinesWithoutBusEffect := by
  unfold Obligations.HostLinesWithoutBusEffect
  intro s d m l k imm hlabel
  have hgoto := State.hostGoto_of_findLabel hlabel
  refine ⟨⟨_, rfl, readVar_writeVar_self d _ _, fun w hw => readVar_writeVar_ne d w _ _ hw, rfl,
    rfl⟩, ?_, ?_, rfl⟩
  · by_cases heq : readVar m s.host.vars = imm
    · simp only [State.hostLine, heq, if_true, hgoto]
    · simp only [State.hostLine, heq, if_false, State.hostNext]
  · by_cases heq : readVar m s.host.vars = imm
    · simp only [State.hostLine, heq, ne_eq, not_true, if_true, if_false, State.hostNext]
    · simp only [State.hostLine, heq, ne_eq, not_false_eq_true, if_true, if_false, hgoto]

/-- Settles O58: an access there is not legal, so the block answers BusError. -/
theorem hostAccessFaultsOnBusError : Obligations.HostAccessFaultsOnBusError := by
  unfold Obligations.HostAccessFaultsOnBusError
  intro s off v imm hoff
  have hillegal : ∀ d w, ¬ Txn.wf ⟨d, off, 4, w⟩ = true := fun d w hwf => by
    obtain ⟨-, haligned, hholds⟩ := (txn_wf_iff _).1 hwf
    simp only at haligned hholds
    omega
  exact ⟨State.hostAccess_of_not_wf (hillegal _ _) _ s,
    State.hostAccess_of_not_wf (hillegal _ _) _ s⟩

end Sys2Proof.Machine
end

section
/-! What a list of blocks from the top down covers (40_convert.md R131 to R135), and how other
aligned blocks lie in it. -/

namespace Sys2Proof.Machine

namespace Entry.IsBlock

variable {e b : Entry} {k j : Nat}

theorem covers_pattern (h : e.IsBlock k) : e.covers e.pattern = true := by
  have hpos := Nat.two_pow_pos k
  rw [h.covers_iff]
  omega

theorem covers_top (h : e.IsBlock k) : e.covers e.top = true := by
  have hpos := Nat.two_pow_pos k
  rw [h.covers_iff, h.toNat_top]
  omega

theorem size_unique (h : e.IsBlock k) (h' : e.IsBlock j) : k = j :=
  h.wildcardCount_mask.symm.trans h'.wildcardCount_mask

/-- A block whose addresses all lie in an interval lies in it. -/
theorem bounds_of_covers {st fin : Word} (h : e.IsBlock k)
    (hin : ∀ a : Word, e.covers a = true → st ≤ a ∧ a ≤ fin) :
    st.toNat ≤ e.pattern.toNat ∧ e.pattern.toNat + 2 ^ k ≤ fin.toNat + 1 := by
  obtain ⟨hst, -⟩ := hin _ h.covers_pattern
  obtain ⟨-, hfin⟩ := hin _ h.covers_top
  rw [BitVec.le_def] at hst hfin
  rw [h.toNat_top] at hfin
  omega

/-- A block is given by its pattern and its size. -/
theorem ext (h : e.IsBlock k) (hb : b.IsBlock k) (hpatt : e.pattern.toNat = b.pattern.toNat) :
    e = b := by
  obtain ⟨p, m⟩ := e
  obtain ⟨p', m'⟩ := b
  obtain rfl : p = p' := BitVec.eq_of_toNat_eq hpatt
  obtain rfl : m = m' := h.mask_eq.trans hb.mask_eq.symm
  rfl

end Entry.IsBlock

/-- Two multiples of `d` are at least `d` apart. -/
theorem add_le_of_dvd_of_lt {d x y : Nat} (hx : d ∣ x) (hy : d ∣ y) (hlt : x < y) : x + d ≤ y := by
  have := Nat.le_of_dvd (by omega) (Nat.dvd_sub hy hx)
  omega

namespace TilesTo

variable {st n m : Nat} {l : List Entry}

/-- The first block of a list: it ends at `n`, and no larger aligned block at or above `st` does. -/
theorem cons_isBlock {e : Entry} (h : TilesTo st n (e :: l) m) (hn : n ≤ 2 ^ 32) :
    ∃ k, e.IsBlock k ∧ e.pattern.toNat + 2 ^ k = n ∧ st ≤ e.pattern.toNat ∧
      (∀ j, 2 ^ j ∣ n → st + 2 ^ j ≤ n → j ≤ k) ∧ TilesTo st e.pattern.toNat l m := by
  obtain ⟨k, hk, rfl, hdvd, hle, hmax, htail⟩ := h
  have hpos := Nat.two_pow_pos k
  have hpatt : (BitVec.ofNat 32 (n - 2 ^ k)).toNat = n - 2 ^ k := Nat.mod_eq_of_lt (by omega)
  refine ⟨k, ⟨hk, rfl, ?_⟩, ?_, ?_, hmax, ?_⟩
  · rw [hpatt]
    exact Nat.dvd_sub hdvd dvd_rfl
  · rw [hpatt]
    omega
  · rw [hpatt]
    omega
  · rw [hpatt]
    exact htail

/-- No block reaches below `st`. -/
theorem le_of_le (h : TilesTo st n l m) (hle : st ≤ n) : st ≤ m := by
  induction l generalizing n with
  | nil => exact hle.trans_eq h
  | cons e l ih =>
    obtain ⟨k, -, -, -, hst, -, htail⟩ := h
    exact ih htail (by omega)

/-- The blocks cover exactly the addresses from `m` up to below `n` (40_convert.md R133). -/
theorem exists_covers_iff (h : TilesTo st n l m) (hn : n ≤ 2 ^ 32) (a : Word) :
    (∃ e ∈ l, e.covers a = true) ↔ m ≤ a.toNat ∧ a.toNat < n := by
  induction l generalizing n with
  | nil =>
    obtain rfl : n = m := h
    simp
  | cons e l ih =>
    obtain ⟨k, hblock, hend, -, -, htail⟩ := h.cons_isBlock hn
    have hpos := Nat.two_pow_pos k
    have hle := htail.add_length_le
    simp only [List.mem_cons, exists_eq_or_imp]
    rw [hblock.covers_iff, ih htail (by omega)]
    omega

/-- No address is in two of the blocks (40_convert.md R133). -/
theorem pairwise_disjoint (h : TilesTo st n l m) (hn : n ≤ 2 ^ 32) :
    l.Pairwise fun e f => ∀ a : Word, ¬ (e.covers a = true ∧ f.covers a = true) := by
  induction l generalizing n with
  | nil => exact .nil
  | cons e l ih =>
    obtain ⟨k, hblock, hend, -, -, htail⟩ := h.cons_isBlock hn
    have hn' : e.pattern.toNat ≤ 2 ^ 32 := by omega
    refine .cons (fun f hf a ⟨hea, hfa⟩ => ?_) (ih htail hn')
    have hbelow := ((htail.exists_covers_iff hn' a).1 ⟨f, hf, hfa⟩).2
    rw [hblock.covers_iff] at hea
    omega

/-- One address tells a block of the list. -/
theorem eq_of_covers (h : TilesTo st n l m) (hn : n ≤ 2 ^ 32) {e f : Entry} (he : e ∈ l)
    (hf : f ∈ l) {a : Word} (hea : e.covers a = true) (hfa : f.covers a = true) : e = f := by
  by_contra hne
  have hsymm : Std.Symm fun e f : Entry =>
      ∀ a : Word, ¬ (e.covers a = true ∧ f.covers a = true) :=
    ⟨fun _ _ h a ha => h a ha.symm⟩
  exact (h.pairwise_disjoint hn).forall he hf hne a ⟨hea, hfa⟩

/-- The key fact: an aligned block at or above `st` whose top the list reaches lies in one block of
the list. Where its top is in the first block, either it is no larger, and alignment keeps it
inside; or it is larger, its end is then the first block's, and the first block is not the largest
(40_convert.md R131, R135). -/
theorem exists_mem_of_isBlock (h : TilesTo st n l m) (hn : n ≤ 2 ^ 32) {b : Entry} {j : Nat}
    (hb : b.IsBlock j) (hst : st ≤ b.pattern.toNat) (hm : m < b.pattern.toNat + 2 ^ j)
    (hle : b.pattern.toNat + 2 ^ j ≤ n) :
    ∃ e ∈ l, ∃ k, e.IsBlock k ∧ e.pattern.toNat ≤ b.pattern.toNat ∧
      b.pattern.toNat + 2 ^ j ≤ e.pattern.toNat + 2 ^ k := by
  induction l generalizing n with
  | nil =>
    obtain rfl : n = m := h
    omega
  | cons e l ih =>
    obtain ⟨k, hblock, hend, -, hmax, htail⟩ := h.cons_isBlock hn
    have hbend : 2 ^ j ∣ b.pattern.toNat + 2 ^ j := (Nat.dvd_add_self_right).2 hb.dvd
    rcases Nat.lt_or_ge e.pattern.toNat (b.pattern.toNat + 2 ^ j) with hin | hbelow
    · have hjk : j ≤ k := by
        by_contra hkj
        have hdvd : 2 ^ k ∣ b.pattern.toNat + 2 ^ j :=
          (pow_dvd_pow 2 (by omega)).trans hbend
        have hn' : n = b.pattern.toNat + 2 ^ j := by
          have := add_le_of_dvd_of_lt hblock.dvd hdvd hin
          omega
        have := hmax j (hn' ▸ hbend) (by omega)
        omega
      have hdvd : 2 ^ j ∣ e.pattern.toNat := (pow_dvd_pow 2 hjk).trans hblock.dvd
      have := add_le_of_dvd_of_lt hdvd hbend hin
      exact ⟨e, List.mem_cons_self, k, hblock, by omega, by omega⟩
    · obtain ⟨f, hf, hrest⟩ := ih htail (by omega) hbelow
      exact ⟨f, List.mem_cons_of_mem e hf, hrest⟩

end TilesTo

end Sys2Proof.Machine
end

section
/-! The function of CONVERT (40_convert.md R125, R131 to R135): O27, O30, O31, O32. -/

namespace Sys2Proof.Machine

/-- Clearing the low `k` bits, where they are all 1, takes `2^k - 1` off. -/
theorem toNat_and_ones_of_dvd {c : Word} {k : Nat} (h : 2 ^ k ∣ c.toNat + 1) :
    (c &&& ones k).toNat + 2 ^ k = c.toNat + 1 := by
  have hpos := Nat.two_pow_pos k
  have hle := Nat.le_of_dvd (Nat.succ_pos _) h
  have hmod : c.toNat % 2 ^ k = 2 ^ k - 1 := by
    obtain ⟨q, hq⟩ := Nat.dvd_sub h (dvd_refl (2 ^ k))
    rw [show c.toNat = 2 ^ k * q + (2 ^ k - 1) by omega, Nat.mul_add_mod]
    exact Nat.mod_eq_of_lt (by omega)
  rw [toNat_and_ones]
  omega

/-- Settles O27: the iteration's block has the size that alignment and `st` allow, and an aligned
block of the cursor is one whose bits are all 1. -/
theorem iterationTakesTheLargestBlock : Obligations.IterationTakesTheLargestBlock := by
  unfold Obligations.IterationTakesTheLargestBlock
  intro st c hst hguard
  obtain ⟨k, hk, hiter, hdvd, hle, -, hmax⟩ := Work.iteration_spec st c hst hguard
  have hbottom := toNat_and_ones_of_dvd hdvd
  refine ⟨k, hk, (low_bits_set_iff c k).2 hdvd, hiter, ?_, fun j hkj _ hones => ?_, hbottom⟩
  · rw [BitVec.le_def]
    omega
  · have hdvd' := (low_bits_set_iff c j).1 hones
    have hbottom' := toNat_and_ones_of_dvd hdvd'
    rw [BitVec.lt_def]
    by_contra hge
    have := hmax j hdvd' (by omega)
    omega

section
variable {st fin : Word} {l : List Entry}

/-- The addresses of an interval number at most `2^32`. -/
theorem toNat_succ_le (fin : Word) : fin.toNat + 1 ≤ 2 ^ 32 := fin.isLt

/-- A successful `convert` of an interval that is not inverted is a tiling down to `st`. -/
theorem convert_ok_tilesTo_st (h : convert st fin = .ok l) (hle : st ≤ fin) :
    TilesTo st.toNat (fin.toNat + 1) l st.toNat := by
  obtain ⟨-, m, htiles, hm⟩ := convert_ok_tilesTo h
  rw [BitVec.le_def] at hle
  have hst := htiles.le_of_le (by omega)
  rwa [Nat.le_antisymm hm hst] at htiles

/-- The entries match exactly the interval (40_convert.md R133). -/
theorem exists_covers_convert_iff (h : convert st fin = .ok l) (hle : st ≤ fin) (a : Word) :
    (∃ e ∈ l, e.covers a = true) ↔ st ≤ a ∧ a ≤ fin := by
  rw [(convert_ok_tilesTo_st h hle).exists_covers_iff (toNat_succ_le fin), BitVec.le_def,
    BitVec.le_def, Nat.lt_succ_iff]

theorem matchesSome_iff (l : List Entry) (a : Word) :
    matchesSome l a = true ↔ ∃ e ∈ l, e.covers a = true := List.any_eq_true

theorem matchesSome_convert_iff (h : convert st fin = .ok l) (hle : st ≤ fin) (a : Word) :
    matchesSome l a = true ↔ st ≤ a ∧ a ≤ fin := by
  rw [matchesSome_iff, exists_covers_convert_iff h hle]

end

/-- Settles O30: a tiling covers its interval with disjoint blocks. -/
theorem convertCoversTheInterval : Obligations.ConvertCoversTheInterval := by
  unfold Obligations.ConvertCoversTheInterval
  intro st fin l hconv hle
  exact ⟨exists_covers_convert_iff hconv hle,
    (convert_ok_tilesTo_st hconv hle).pairwise_disjoint (toNat_succ_le fin)⟩

namespace TilesTo

variable {st n m : Nat} {l : List Entry}

/-- The first block has its top at the cursor (40_convert.md R132). -/
theorem top_head {e : Entry} (h : TilesTo st n (e :: l) m) (hn : n ≤ 2 ^ 32) :
    e.top.toNat + 1 = n := by
  obtain ⟨k, hblock, hend, -⟩ := h.cons_isBlock hn
  have hpos := Nat.two_pow_pos k
  rw [hblock.toNat_top]
  omega

/-- The last block has its bottom where the tiling ends (40_convert.md R132). -/
theorem pattern_getLast (h : TilesTo st n l m) (hn : n ≤ 2 ^ 32) (hne : l ≠ []) :
    ∃ e ∈ l.getLast?, e.pattern.toNat = m := by
  induction l generalizing n with
  | nil => exact absurd rfl hne
  | cons e l ih =>
    obtain ⟨k, -, hend, -, -, htail⟩ := h.cons_isBlock hn
    cases l with
    | nil => exact ⟨e, rfl, htail⟩
    | cons f l =>
      rw [List.getLast?_cons_cons]
      exact ih htail (by omega) (List.cons_ne_nil f l)

/-- Each block has its top one below the block before it (40_convert.md R132). -/
theorem top_getElem_succ (h : TilesTo st n l m) (hn : n ≤ 2 ^ 32) (i : Nat)
    (hi : i + 1 < l.length) : l[i + 1].top.toNat + 1 = l[i].pattern.toNat := by
  induction l generalizing n i with
  | nil => cases hi
  | cons e l ih =>
    obtain ⟨k, -, hend, -, -, htail⟩ := h.cons_isBlock hn
    have hn' : e.pattern.toNat ≤ 2 ^ 32 := by omega
    cases i with
    | zero =>
      cases l with
      | nil => exact absurd hi (by simp)
      | cons f l => exact htail.top_head hn'
    | succ i => exact ih htail hn' i (Nat.lt_of_succ_lt_succ hi)

end TilesTo

/-- Settles O31: the tiling's first block ends at `end`, its last begins at `st`, and each begins
where the next one ends. -/
theorem convertListsBlocksFromTheTop : Obligations.ConvertListsBlocksFromTheTop := by
  unfold Obligations.ConvertListsBlocksFromTheTop
  intro st fin l hconv hle
  have htiles := convert_ok_tilesTo_st hconv hle
  have hn := toNat_succ_le fin
  have hne : l ≠ [] := by
    rintro rfl
    have : fin.toNat + 1 = st.toNat := htiles
    rw [BitVec.le_def] at hle
    omega
  refine ⟨?_, ?_, fun i hi => ?_⟩
  · obtain ⟨e, l, rfl⟩ := List.exists_cons_of_ne_nil hne
    exact ⟨e, rfl, BitVec.eq_of_toNat_eq (Nat.succ.inj (htiles.top_head hn))⟩
  · obtain ⟨e, he, hpatt⟩ := htiles.pattern_getLast hn hne
    exact ⟨e, he, BitVec.eq_of_toNat_eq hpatt⟩
  · have htop := htiles.top_getElem_succ hn i hi
    have hbottom : l[i + 1].pattern.toNat ≤ l[i + 1].top.toNat := by
      obtain ⟨k, hblock, -⟩ := isBlock_of_mem_convert hconv (List.getElem_mem hi)
      have hpos := Nat.two_pow_pos k
      rw [hblock.toNat_top]
      omega
    have hpos : l[i].pattern ≠ 0#32 := by
      intro h0
      rw [h0] at htop
      exact absurd htop (Nat.succ_ne_zero _)
    refine ⟨?_, BitVec.eq_of_toNat_eq ?_⟩
    · rw [BitVec.lt_def]
      omega
    · rw [word_sub_one_toNat _ hpos]
      omega

/-- Settles O32: a block inside the interval lies in one of the entries, and that entry is the one
it holds. -/
theorem entriesAreMaximal : Obligations.EntriesAreMaximal := by
  unfold Obligations.EntriesAreMaximal
  intro st fin l hconv e he b hb hcover hin
  obtain ⟨j, hbj⟩ := b.wf_iff_isBlock.1 hb
  obtain ⟨k, hek, hlo, hhi⟩ := isBlock_of_mem_convert hconv he
  have hpos := Nat.two_pow_pos k
  have hle : st ≤ fin := by
    rw [BitVec.le_def]
    omega
  have htiles := convert_ok_tilesTo_st hconv hle
  have hn := toNat_succ_le fin
  obtain ⟨hblo, hbhi⟩ := hbj.bounds_of_covers hin
  have hposj := Nat.two_pow_pos j
  obtain ⟨f, hf, i, hfi, hflo, hfhi⟩ :=
    htiles.exists_mem_of_isBlock hn hbj hblo (by omega) hbhi
  have hpatt := (hbj.covers_iff _).1 (hcover _ hek.covers_pattern)
  have htop := (hbj.covers_iff _).1 (hcover _ hek.covers_top)
  rw [hek.toNat_top] at htop
  obtain rfl : e = f := htiles.eq_of_covers hn he hf hek.covers_pattern
    ((hfi.covers_iff _).2 (by omega))
  obtain rfl := hek.size_unique hfi
  obtain rfl : j = k := Nat.pow_right_injective le_rfl (by simp only; omega)
  exact hbj.ext hek (by omega)

end Sys2Proof.Machine
end

section
/-! Covers of an interval by aligned blocks (40_convert.md R136, R137): O33, O34. Of the patterns of
a tiling no block inside the interval covers two, so a cover has a block for each. -/

namespace Sys2Proof.Machine

/-- Addresses of which no entry of a cover matches two are at most as many as its entries. -/
theorem length_le_of_separated (as : List Word) (cover : List Entry)
    (hcover : ∀ a ∈ as, ∃ b ∈ cover, b.covers a = true)
    (hsep : as.Pairwise fun a a' => ∀ b ∈ cover, ¬ (b.covers a = true ∧ b.covers a' = true)) :
    as.length ≤ cover.length := by
  induction as generalizing cover with
  | nil => exact Nat.zero_le _
  | cons a as ih =>
    obtain ⟨b, hb, hba⟩ := hcover a List.mem_cons_self
    obtain ⟨hfirst, hrest⟩ := List.pairwise_cons.1 hsep
    have hle : as.length ≤ (cover.erase b).length := by
      refine ih _ (fun a' ha' => ?_) (hrest.imp fun h b' hb' => h b' (List.mem_of_mem_erase hb'))
      obtain ⟨b', hb', hba'⟩ := hcover a' (List.mem_cons_of_mem a ha')
      have hne : b' ≠ b := by
        rintro rfl
        exact hfirst a' ha' b' hb' ⟨hba, hba'⟩
      exact ⟨b', (List.mem_erase_of_ne hne).2 hb', hba'⟩
    rw [List.length_erase_of_mem hb] at hle
    have := List.length_pos_of_mem hb
    rw [List.length_cons]
    omega

/-- `cover` is a list of well-formed entries that match exactly the interval `[st, end]`. -/
def CoversExactly (cover : List Entry) (st fin : Word) : Prop :=
  (∀ b ∈ cover, b.wf = true) ∧ ∀ a : Word, matchesSome cover a = true ↔ st ≤ a ∧ a ≤ fin

section
variable {st fin : Word} {m : Nat} {l cover : List Entry}

/-- An entry of a cover that matches an address of a tiling lies in one block of the tiling. -/
theorem CoversExactly.exists_mem_tiling (hc : CoversExactly cover st fin)
    (htiles : TilesTo st.toNat (fin.toNat + 1) l m) {b : Entry} (hb : b ∈ cover) {a : Word}
    (ha : b.covers a = true) (hm : m ≤ a.toNat) :
    ∃ e ∈ l, ∀ a' : Word, b.covers a' = true → e.covers a' = true := by
  obtain ⟨hwf, hmatch⟩ := hc
  obtain ⟨j, hbj⟩ := b.wf_iff_isBlock.1 (hwf b hb)
  obtain ⟨hlo, hhi⟩ := hbj.bounds_of_covers fun a' ha' =>
    (hmatch a').1 ((matchesSome_iff cover a').2 ⟨b, hb, ha'⟩)
  have hab := (hbj.covers_iff a).1 ha
  obtain ⟨e, he, k, hek, helo, hehi⟩ :=
    htiles.exists_mem_of_isBlock (toNat_succ_le fin) hbj hlo (by omega) hhi
  refine ⟨e, he, fun a' ha' => ?_⟩
  rw [hbj.covers_iff] at ha'
  rw [hek.covers_iff]
  omega

/-- The pattern of an entry of a tiling is an address of the interval. -/
theorem pattern_bounds_of_mem_tiling (htiles : TilesTo st.toNat (fin.toNat + 1) l m) {e : Entry}
    (he : e ∈ l) : e.covers e.pattern = true ∧ m ≤ e.pattern.toNat ∧ st ≤ e.pattern ∧
      e.pattern ≤ fin := by
  have hn := toNat_succ_le fin
  obtain ⟨k, hek, hlo, -⟩ := htiles.isBlock_of_mem hn he
  obtain ⟨hm, hhi⟩ := (htiles.exists_covers_iff hn _).1 ⟨e, he, hek.covers_pattern⟩
  exact ⟨hek.covers_pattern, hm, hlo, Nat.lt_succ_iff.1 hhi⟩

/-- No entry of a cover matches the patterns of two blocks of a tiling. -/
theorem CoversExactly.patterns_separated (hc : CoversExactly cover st fin)
    (htiles : TilesTo st.toNat (fin.toNat + 1) l m) :
    (l.map Entry.pattern).Pairwise fun a a' =>
      ∀ b ∈ cover, ¬ (b.covers a = true ∧ b.covers a' = true) := by
  have hn := toNat_succ_le fin
  refine List.pairwise_map.2 ((htiles.pairwise_disjoint hn).imp_of_mem ?_)
  rintro e f he hf hdisjoint b hb ⟨hbe, hbf⟩
  obtain ⟨hee, hme, -⟩ := pattern_bounds_of_mem_tiling htiles he
  obtain ⟨hff, -⟩ := pattern_bounds_of_mem_tiling htiles hf
  obtain ⟨g, hg, hbg⟩ := hc.exists_mem_tiling htiles hb hbe hme
  obtain rfl := htiles.eq_of_covers hn hg he (hbg _ hbe) hee
  obtain rfl := htiles.eq_of_covers hn hg hf (hbg _ hbf) hff
  exact hdisjoint _ ⟨hee, hee⟩

/-- A cover has an entry for each block of a tiling of its interval, and one more where the tiling
stops above `st` (40_convert.md R136, R137). -/
theorem CoversExactly.length_le (hc : CoversExactly cover st fin) (hle : st ≤ fin)
    (htiles : TilesTo st.toNat (fin.toNat + 1) l m) :
    l.length ≤ cover.length ∧ (st.toNat < m → l.length < cover.length) := by
  have hcover : ∀ a : Word, st ≤ a → a ≤ fin → ∃ b ∈ cover, b.covers a = true := fun a hlo hhi =>
    (matchesSome_iff cover a).1 ((hc.2 a).2 ⟨hlo, hhi⟩)
  have hpatterns : ∀ a ∈ l.map Entry.pattern, ∃ b ∈ cover, b.covers a = true := by
    intro a ha
    obtain ⟨e, he, rfl⟩ := List.mem_map.1 ha
    obtain ⟨-, -, hlo, hhi⟩ := pattern_bounds_of_mem_tiling htiles he
    exact hcover _ hlo hhi
  have hsep := hc.patterns_separated htiles
  constructor
  · simpa only [List.length_map] using length_le_of_separated _ cover hpatterns hsep
  · intro hst
    have hall := length_le_of_separated (st :: l.map Entry.pattern) cover
      (List.forall_mem_cons.2 ⟨hcover st (BitVec.le_refl st) hle, hpatterns⟩)
      (List.pairwise_cons.2 ⟨fun a ha b hb ⟨hbst, hba⟩ => ?_, hsep⟩)
    · rwa [List.length_cons, List.length_map] at hall
    · obtain ⟨e, he, rfl⟩ := List.mem_map.1 ha
      obtain ⟨-, hme, -⟩ := pattern_bounds_of_mem_tiling htiles he
      obtain ⟨g, hg, hbg⟩ := hc.exists_mem_tiling htiles hb hba hme
      have := (htiles.exists_covers_iff (toNat_succ_le fin) st).1 ⟨g, hg, hbg _ hbst⟩
      omega

end

/-- Settles O33: the result is a tiling, and a cover has an entry for each of its blocks. -/
theorem convertIsMinimal : Obligations.ConvertIsMinimal := by
  unfold Obligations.ConvertIsMinimal
  intro st fin l hconv hle cover hwf hmatch
  exact (CoversExactly.length_le ⟨hwf, hmatch⟩ hle (convert_ok_tilesTo_st hconv hle)).1

/-- Settles O34: the capacity failure leaves addresses below 32 blocks of a tiling, so a cover has
more entries; a success is itself a cover. -/
theorem capacityFailureMeansNoSmallCover : Obligations.CapacityFailureMeansNoSmallCover := by
  unfold Obligations.CapacityFailureMeansNoSmallCover
  intro st fin hle hguard
  rcases convert_spec st fin with ⟨hmax, hne, -⟩ | ⟨l, m, -, hok, hlength, -, -⟩ |
    ⟨l, m, -, hfail, hlength, htiles, hst⟩
  · exact absurd (hguard hmax) hne
  · rw [hok]
    refine iff_of_false nofun (not_not.2 ⟨l, hlength, fun e he => ?_, ?_⟩)
    · obtain ⟨k, hek, -⟩ := isBlock_of_mem_convert hok he
      exact hek.wf
    · exact matchesSome_convert_iff hok hle
  · refine iff_of_true hfail ?_
    rintro ⟨cover, hsmall, hwf, hmatch⟩
    have := (CoversExactly.length_le ⟨hwf, hmatch⟩ hle htiles).2 hst
    omega

end Sys2Proof.Machine
end

section
/-! Particular intervals (40_convert.md R130, R141, R144, R145; 41_select.md R170): O36 to O38. -/

namespace Sys2Proof.Machine

/-- A number and what is left of it after its largest power of two: the same bits but that one. -/
theorem testBit_sub_two_pow {n k : Nat} (hdvd : 2 ^ k ∣ n) (hnot : ¬ 2 ^ (k + 1) ∣ n) :
    n.testBit k = true ∧ (n - 2 ^ k).testBit k = false ∧
      ∀ i, i ≠ k → (n - 2 ^ k).testBit i = n.testBit i := by
  obtain ⟨q, rfl⟩ := hdvd
  rw [pow_succ, Nat.mul_dvd_mul_iff_left (Nat.two_pow_pos k)] at hnot
  obtain ⟨p, rfl⟩ : ∃ p, q = 2 * p + 1 := ⟨q / 2, by omega⟩
  have hsub : 2 ^ k * (2 * p + 1) - 2 ^ k = 2 ^ k * (2 * p) := by
    rw [Nat.mul_succ, Nat.add_sub_cancel]
  rw [hsub]
  refine ⟨by simp [Nat.testBit_two_pow_mul], by simp [Nat.testBit_two_pow_mul], fun i hi => ?_⟩
  rw [Nat.testBit_two_pow_mul, Nat.testBit_two_pow_mul]
  rcases Nat.lt_or_gt_of_ne hi with hlt | hgt
  · simp [Nat.not_le.2 hlt]
  · obtain ⟨d, rfl⟩ : ∃ d, i = k + (d + 1) := ⟨i - k - 1, by omega⟩
    rw [Nat.add_sub_cancel_left, Nat.testBit_succ, Nat.testBit_succ]
    congr 2
    omega

/-- Turning one counted bit off takes one off the count. -/
theorem countP_testBit_sub {n n' k w : Nat} (hk : k < w) (hon : n.testBit k = true)
    (hoff : n'.testBit k = false) (hsame : ∀ i, i ≠ k → n'.testBit i = n.testBit i) :
    (List.range w).countP n.testBit = (List.range w).countP n'.testBit + 1 := by
  have hperm := List.perm_cons_erase (List.mem_range.2 hk)
  have hrest : ((List.range w).erase k).countP n'.testBit =
      ((List.range w).erase k).countP n.testBit :=
    List.countP_congr fun i hi => by
      rw [hsame i (List.nodup_range.mem_erase_iff.1 hi).1]
  rw [hperm.countP_eq, hperm.countP_eq, List.countP_cons, List.countP_cons, hrest]
  simp [hon, hoff]

/-- From address 0 the blocks are the 1 bits of the number of addresses (40_convert.md R141). -/
theorem TilesTo.length_of_zero {n : Nat} {l : List Entry} (h : TilesTo 0 n l 0) (hn : n < 2 ^ 32) :
    l.length = (List.range 32).countP n.testBit := by
  induction l generalizing n with
  | nil =>
    obtain rfl : n = 0 := h
    refine (List.countP_eq_zero.2 fun i _ => ?_).symm
    simp
  | cons e l ih =>
    obtain ⟨k, -, -, hdvd, hle, hmax, htail⟩ := h
    have hpos := Nat.two_pow_pos k
    have hnot : ¬ 2 ^ (k + 1) ∣ n := fun hdvd' => by
      have := hmax (k + 1) hdvd' (by have := Nat.le_of_dvd (by omega) hdvd'; omega)
      omega
    have hk : k < 32 := (Nat.pow_lt_pow_iff_right (by decide : 1 < 2)).1 (by omega)
    obtain ⟨hon, hoff, hsame⟩ := testBit_sub_two_pow hdvd hnot
    rw [countP_testBit_sub hk hon hoff hsame, ← ih htail (by omega), List.length_cons]

/-- Settles O36: the result is a tiling from 0, and `end + 1` is the number of its addresses. -/
theorem intervalsFromZeroSucceed : Obligations.IntervalsFromZeroSucceed := by
  unfold Obligations.IntervalsFromZeroSucceed
  refine ⟨fun fin hmax => ?_, convert_zero_maxWord⟩
  obtain ⟨l, hl⟩ := exists_convert_zero_ok fin
  have hlt : fin.toNat + 1 < 2 ^ 32 := by
    have hfin := fin.isLt
    have hne : fin.toNat ≠ 4294967295 := fun h => hmax (BitVec.eq_of_toNat_eq h)
    omega
  have hsucc : (fin + 1#32).toNat = fin.toNat + 1 := by
    rw [BitVec.toNat_add]
    exact Nat.mod_eq_of_lt hlt
  refine ⟨l, hl, ?_⟩
  have htiles := convert_ok_tilesTo_st hl (BitVec.le_def.2 (Nat.zero_le _))
  rw [htiles.length_of_zero hlt, ← hsucc]
  rfl

section
variable {st n m : Nat} {l : List Entry}

/-- Where no address is left there is no block. -/
theorem TilesTo.eq_nil (h : TilesTo st n l m) (hle : n ≤ st) : l = [] := by
  cases l with
  | nil => rfl
  | cons e l =>
    obtain ⟨k, -, -, -, hst, -⟩ := h
    have hpos := Nat.two_pow_pos k
    omega

/-- An aligned block is tiled by itself. -/
theorem TilesTo.eq_singleton {k : Nat} (h : TilesTo st n l m) (hst : st + 2 ^ k = n)
    (hdvd : 2 ^ k ∣ n) (hlt : m < n) : l = [⟨BitVec.ofNat 32 st, ones k⟩] ∧ m = st := by
  cases l with
  | nil => exact absurd h (by simp only [TilesTo]; omega)
  | cons e l =>
    obtain ⟨k', -, rfl, -, hle, hmax, htail⟩ := h
    have hkk := hmax k hdvd hst.le
    have hk : k' = k := Nat.le_antisymm
      ((Nat.pow_le_pow_iff_right (by decide : 1 < 2)).1 (by omega)) hkk
    subst hk
    have hrest : n - 2 ^ k' = st := by omega
    rw [hrest] at htail
    obtain rfl := htail.eq_nil le_rfl
    exact ⟨by rw [hrest], htail.symm⟩

end

/-- Settles O37: an aligned block is tiled by itself, in one entry, so the capacity is not at
stake. -/
theorem alignedIntervalIsOneEntry : Obligations.AlignedIntervalIsOneEntry := by
  unfold Obligations.AlignedIntervalIsOneEntry
  intro fin k hk hmax hones
  have hdvd := (low_bits_set_iff fin k).1 hones
  have hst := toNat_and_ones_of_dvd hdvd
  have hpos := Nat.two_pow_pos k
  rcases convert_spec (fin &&& ones k) fin with ⟨hfin, hne, -⟩ | ⟨l, m, -, hok, -, htiles, hm⟩ |
    ⟨l, m, -, -, hlength, htiles, hm⟩
  · obtain rfl := hmax hfin
    have hlt := fin.isLt
    have hzero : (fin &&& ones 32).toNat = 0 := by omega
    exact absurd (BitVec.eq_of_toNat_eq hzero) hne
  · obtain ⟨rfl, -⟩ := htiles.eq_singleton hst hdvd (by omega)
    rw [hok, BitVec.ofNat_toNat, BitVec.setWidth_eq]
  · have hlt := htiles.add_length_le
    obtain ⟨rfl, -⟩ := htiles.eq_singleton hst hdvd (by omega)
    cases hlength

/-- An inverted interval is the empty list (40_convert.md R130). -/
theorem convert_of_lt {st fin : Word} (h : fin < st) : convert st fin = .ok [] := by
  rw [BitVec.lt_def] at h
  rcases convert_spec st fin with ⟨hfin, -, -⟩ | ⟨l, m, -, hok, -, htiles, -⟩ |
    ⟨l, m, -, -, hlength, htiles, -⟩
  · have := st.isLt
    rw [hfin] at h
    exact absurd h (by simp only [BitVec.toNat_ofNat]; omega)
  · rw [hok, htiles.eq_nil h]
  · rw [htiles.eq_nil h] at hlength
    cases hlength

/-- Settles O38: the direct decomposition is empty, and no alternative has fewer entries. -/
theorem invertedIntervalIsEmpty : Obligations.InvertedIntervalIsEmpty := by
  unfold Obligations.InvertedIntervalIsEmpty
  intro st fin hlt
  have hd := convert_of_lt hlt
  have hst : st ≠ 0#32 := by
    rintro rfl
    exact absurd hlt (by simp [BitVec.lt_def])
  obtain ⟨r, hr⟩ := exists_convert_zero_ok (st - 1#32)
  obtain ⟨a, ha⟩ := exists_convert_zero_ok fin
  exact ⟨convertCmd_of_ok hd,
    (selectCmd_of_ok hst hd hr ha).trans (chooseRules_of_le (Nat.zero_le _))⟩

end Sys2Proof.Machine
end

section
/-! What a Split means and needs, and how an emitted mask is rendered (41_select.md R169, R172;
60_exceptions.md R186): O42, O43, O44. -/

namespace Sys2Proof.Machine

section
variable {st fin : Word} {r a : List Entry}

/-- A Split comes of the comparison of the counts alone (41_select.md R161, R165). -/
theorem selectCmd_eq_split (h : selectCmd st fin = .split r a) :
    st ≠ 0#32 ∧ convert 0#32 (st - 1#32) = .ok r ∧ convert 0#32 fin = .ok a ∧
      ∃ d, convert st fin = .ok d ∧ r.length + a.length < d.length := by
  rcases selectCmd_cases st fin with ⟨c, -, hsel⟩ | ⟨d, -, -, hsel⟩ | ⟨d, c, -, -, hsel, -⟩ |
    ⟨d, r', a', hd, hst, hr, ha, hsel⟩
  · exact absurd (hsel.symm.trans h) nofun
  · exact absurd (hsel.symm.trans h) nofun
  · exact absurd (hsel.symm.trans h) nofun
  · rcases Nat.lt_or_ge (r'.length + a'.length) d.length with hlt | hge
    · rw [hsel, chooseRules_of_lt hlt] at h
      cases h
      exact ⟨hst, hr, ha, d, hd, hlt⟩
    · rw [hsel, chooseRules_of_le hge] at h
      cases h

/-- The entries of an interval from address 0 match what is at or below its end. -/
theorem matchesSome_convert_zero_iff {l : List Entry} (h : convert 0#32 fin = .ok l) (x : Word) :
    matchesSome l x = true ↔ x ≤ fin := by
  rw [matchesSome_convert_iff h (BitVec.le_def.2 (Nat.zero_le _)),
    and_iff_right (BitVec.le_def.2 (Nat.zero_le _))]

theorem convert_zero_ne_nil {l : List Entry} (h : convert 0#32 fin = .ok l) : l ≠ [] := by
  rintro rfl
  have hmatch := (matchesSome_convert_zero_iff h fin).2 (BitVec.le_refl fin)
  cases hmatch

end

/-- Settles O42: the reject set matches what is below `start`, the accept set what is at or below
`end`. -/
theorem splitAcceptsExactlyTheInterval : Obligations.SplitAcceptsExactlyTheInterval := by
  unfold Obligations.SplitAcceptsExactlyTheInterval
  intro st fin r a h x
  obtain ⟨hst, hr, ha, -⟩ := selectCmd_eq_split h
  have hbelow : x ≤ st - 1#32 ↔ ¬ st ≤ x := by
    have hne : st.toNat ≠ 0 := fun h0 => hst (BitVec.eq_of_toNat_eq h0)
    rw [BitVec.le_def, BitVec.le_def, word_sub_one_toNat st hst]
    omega
  rw [splitAccepts, Bool.and_eq_true, Bool.not_eq_true', ← Bool.not_eq_true,
    matchesSome_convert_zero_iff hr, matchesSome_convert_zero_iff ha, hbelow, not_not]

/-- Settles O43: neither alternative is empty, and together they are fewer than the direct
entries. -/
theorem splitNeedsThreeDirectEntries : Obligations.SplitNeedsThreeDirectEntries := by
  unfold Obligations.SplitNeedsThreeDirectEntries
  intro st fin r a h
  obtain ⟨hst, hr, ha, d, hd, hlt⟩ := selectCmd_eq_split h
  have hrne := convert_zero_ne_nil hr
  have hane := convert_zero_ne_nil ha
  have hrpos := List.length_pos_iff.2 hrne
  have hapos := List.length_pos_iff.2 hane
  exact ⟨hst, hrne, hane, d, hd, by omega⟩

/-- Settles O44: the mask of an aligned block is `ONES` of its wildcard count. -/
theorem emittedMasksHaveAPrefixLength : Obligations.EmittedMasksHaveAPrefixLength := by
  unfold Obligations.EmittedMasksHaveAPrefixLength
  intro st fin l hconv e he
  obtain ⟨k, hblock, -⟩ := isBlock_of_mem_convert hconv he
  refine ⟨k, hblock.le, hblock.mask_eq, ?_⟩
  rw [prefixLength, hblock.wildcardCount_mask, if_pos hblock.mask_eq]

end Sys2Proof.Machine
end

section
/-! The engine line by line (10_state.md R49; 40_convert.md R121, R139; 41_select.md R161): O28,
O45, O46. Each loop of the pseudocode is a run of micro-steps, and a run of a pass ends as `convert`
does. -/

namespace Sys2Proof.Machine

/-- Within `n` micro-steps the engine comes from `e` to `e'`. -/
def Engine.Reaches (op : Instr) (st fin : Word) (n : Nat) (e e' : Engine) : Prop :=
  ∃ k, k ≤ n ∧ (Engine.tick op st fin)^[k] e = e'

/-- The engine at position `p` with working values `w`. -/
def Engine.moved (e : Engine) (p : EnginePos) (w : Work) : Engine := { e with pos := p, work := w }

/-- The strip loop stops within its 32 rounds (40_convert.md R124). -/
theorem Work.canStrip_strip_atCursor (c : Word) :
    (Work.strip 32 (Work.atCursor c)).canStrip = false := by
  obtain ⟨t, -, -, hstrip, -, hclear⟩ := Work.strip_stripped c 32 0
  rw [Work.atCursor_eq, hstrip]
  exact Work.canStrip_stripped_of_clear (by simpa using hclear)

/-- The retract loop stops within its 32 rounds (40_convert.md R125). -/
theorem Work.iteration_patt_ge {lo c : Word} (hle : ¬ c < lo) (hg : c = maxWord → lo = 0#32) :
    ¬ (Work.iteration lo c).patt < lo := by
  rw [BitVec.lt_def, Nat.not_lt] at hle
  obtain ⟨k, -, -, hpatt, -, hlo, -⟩ := iteration_entry lo c hle hg
  rw [BitVec.lt_def, hpatt]
  omega

section
variable {op : Instr} {st fin : Word} {n n' : Nat} {e e' e'' : Engine} {w : Work}

theorem Engine.Reaches.refl (n : Nat) (e : Engine) : e.Reaches op st fin n e :=
  ⟨0, Nat.zero_le n, rfl⟩

theorem Engine.Reaches.step (htick : e.tick op st fin = e') (h : e'.Reaches op st fin n e'') :
    e.Reaches op st fin (n + 1) e'' := by
  obtain ⟨k, hk, hrun⟩ := h
  exact ⟨k + 1, Nat.succ_le_succ hk, by rw [Function.iterate_succ_apply, htick, hrun]⟩

theorem Engine.Reaches.trans (h : e.Reaches op st fin n e') (h' : e'.Reaches op st fin n' e'') :
    e.Reaches op st fin (n + n') e'' := by
  obtain ⟨k, hk, rfl⟩ := h
  obtain ⟨k', hk', rfl⟩ := h'
  exact ⟨k' + k, by omega, Function.iterate_add_apply _ k' k e⟩

theorem Engine.Reaches.mono (h : e.Reaches op st fin n e') (hn : n ≤ n') :
    e.Reaches op st fin n' e' := by
  obtain ⟨k, hk, hrun⟩ := h
  exact ⟨k, hk.trans hn, hrun⟩

/-- The strip loop, lines 5 to 8. -/
theorem Engine.reaches_strip (e : Engine) (fuel : Nat) (w : Work)
    (hstop : (Work.strip fuel w).canStrip = false) :
    (e.moved .strip w).Reaches op st fin (fuel + 1) (e.moved .retract (Work.strip fuel w)) := by
  have leave : ∀ {w : Work}, w.canStrip = false →
      (e.moved .strip w).tick op st fin = e.moved .retract w := fun h =>
    if_neg (Bool.eq_false_iff.1 h)
  induction fuel generalizing w with
  | zero => exact .step (leave hstop) (.refl _ _)
  | succ fuel ih =>
    rw [Work.strip] at hstop ⊢
    by_cases hcan : w.canStrip = true
    · rw [if_pos hcan] at hstop ⊢
      exact .step (if_pos hcan) (ih w.stripRound hstop)
    · rw [if_neg hcan]
      exact .step (leave (Bool.eq_false_iff.2 hcan)) (.refl _ _)

/-- The retract loop, lines 9 to 12. -/
theorem Engine.reaches_retract (e : Engine) (fuel : Nat) (w : Work)
    (hstop : ¬ (Work.retract (e.pass.lo st) fuel w).patt < e.pass.lo st) :
    (e.moved .retract w).Reaches op st fin (fuel + 1)
      (e.moved .append (Work.retract (e.pass.lo st) fuel w)) := by
  have leave : ∀ {w : Work}, ¬ w.patt < e.pass.lo st →
      (e.moved .retract w).tick op st fin = e.moved .append w := fun h => if_neg h
  induction fuel generalizing w with
  | zero => exact .step (leave hstop) (.refl _ _)
  | succ fuel ih =>
    rw [Work.retract] at hstop ⊢
    by_cases hlt : w.patt < e.pass.lo st
    · rw [if_pos hlt] at hstop ⊢
      exact .step (if_pos hlt) (ih w.retractRound hstop)
    · rw [if_neg hlt]
      exact .step (leave hlt) (.refl _ _)

/-- Lines 3 to 12, one outer iteration up to its capacity check. -/
theorem Engine.reaches_iteration (e : Engine) (w : Work) (hle : ¬ w.patt < e.pass.lo st)
    (hg : w.patt = maxWord → e.pass.lo st = 0#32) :
    (e.moved .outer w).Reaches op st fin 67
      (e.moved .append (Work.iteration (e.pass.lo st) w.patt)) := by
  have hentry : (e.moved .outer w).tick op st fin = e.moved .strip (Work.atCursor w.patt) :=
    if_neg hle
  exact .step hentry ((e.reaches_strip 32 _ (Work.canStrip_strip_atCursor w.patt)).trans
    (e.reaches_retract 32 _ (Work.iteration_patt_ge hle hg)))

/-- `e'` is where a pass of `select` that ran from `e` leaves the engine when its `convert` has the
result `r`: at the next line of the command, or finished by the failure. -/
def Engine.PassEnds (op : Instr) (st : Word) (e : Engine) (e' : Engine) : ConvertResult → Prop
  | .ok l => ∃ p w, e' = Engine.passOk op st (Engine.moved { e with list := l } p w)
  | .fail c => e'.pos = .finished (.fail c)

theorem outerLoop_of_lt {lo c : Word} (h : c < lo) (room : Nat) (l : List Entry) :
    outerLoop lo room c l = .ok l := by
  cases room <;> rw [outerLoop, if_pos h]

/-- A word that is not 0 has one below it, which is not `MAX`. -/
theorem word_sub_one_ne_max {x : Word} (h : x ≠ 0#32) : x - 1#32 ≠ maxWord := by
  intro hmax
  have hsub := word_sub_one_toNat x h
  have hlt := x.isLt
  rw [hmax] at hsub
  simp only [BitVec.toNat_ofNat] at hsub
  omega

/-- The outer loop, lines 3 to 17, from `room` free slots: the engine ends the pass as `outerLoop`
does. -/
theorem Engine.reaches_outerLoop (e : Engine) (room : Nat) (w : Work) (l : List Entry)
    (hroom : l.length + room = Config.capacity)
    (hg : w.patt = maxWord → e.pass.lo st = 0#32) :
    ∃ e', Engine.PassEnds op st e e' (outerLoop (e.pass.lo st) room w.patt l) ∧
      (Engine.moved { e with list := l } .outer w).Reaches op st fin (68 * (room + 1)) e' := by
  induction room generalizing w l with
  | zero =>
    by_cases hlt : w.patt < e.pass.lo st
    · rw [outerLoop_of_lt hlt]
      exact ⟨_, ⟨_, _, rfl⟩, .step (if_pos hlt) (.refl _ _)⟩
    · rw [outerLoop, if_neg hlt]
      refine ⟨_, ?_, (Engine.reaches_iteration { e with list := l } w hlt hg).trans
        (.step (if_pos hroom) (.refl 0 _))⟩
      rfl
  | succ room ih =>
    by_cases hlt : w.patt < e.pass.lo st
    · rw [outerLoop_of_lt hlt]
      exact ⟨_, ⟨_, _, rfl⟩, .step (if_pos hlt) (.refl _ _)⟩
    · rw [outerLoop, if_neg hlt]
      have hiter := Engine.reaches_iteration (op := op) (fin := fin) { e with list := l } w hlt hg
      have hfree : l.length ≠ Config.capacity := by omega
      by_cases h0 : (Work.iteration (e.pass.lo st) w.patt).patt = 0#32
      · rw [if_pos h0]
        refine ⟨_, ⟨_, _, rfl⟩, (hiter.trans
          (.step ((if_neg hfree).trans (if_pos h0)) (.refl 0 _))).mono (by omega)⟩
      · rw [if_neg h0]
        obtain ⟨e', hends, hreach⟩ := ih
          { Work.iteration (e.pass.lo st) w.patt with
            patt := (Work.iteration (e.pass.lo st) w.patt).patt - 1#32 }
          (l ++ [(Work.iteration (e.pass.lo st) w.patt).entry])
          (by rw [List.length_append, List.length_singleton]; omega)
          (fun hmax => absurd hmax (word_sub_one_ne_max h0))
        exact ⟨e', hends, (hiter.trans
          (.step ((if_neg hfree).trans (if_neg h0)) hreach)).mono (by omega)⟩

/-- One pass, lines 1 to 17: the engine ends it as `convert` does (40_convert.md R121). -/
theorem Engine.reaches_passEnds (op : Instr) (st fin : Word) (e : Engine) (hpos : e.pos = .start) :
    ∃ e', Engine.PassEnds op st e e' (convert (e.pass.lo st) (e.pass.hi st fin)) ∧
      e.Reaches op st fin 2245 e' := by
  by_cases hguard : e.pass.hi st fin = maxWord ∧ e.pass.lo st ≠ 0#32
  · have htick : e.tick op st fin = { e with pos := .finished (.fail .rangeTooLarge) } := by
      rw [Engine.tick, hpos]
      exact if_pos hguard
    rw [convert, if_pos hguard]
    refine ⟨_, ?_, .step htick (.refl _ _)⟩
    rfl
  · have htick : e.tick op st fin = Engine.moved { e with list := [] } .outer
        { e.work with patt := e.pass.hi st fin } := by
      rw [Engine.tick, hpos]
      exact if_neg hguard
    obtain ⟨e', hends, hreach⟩ := e.reaches_outerLoop (op := op) (st := st) (fin := fin) 32
      { e.work with patt := e.pass.hi st fin } [] rfl
      (fun hmax => by_contra fun hne => hguard ⟨hmax, hne⟩)
    rw [convert, if_neg hguard]
    exact ⟨e', hends, .step htick hreach⟩

end

/-! The successful end of a pass, by the lines of 41_select.md R161. -/

section
variable {st : Word} {e e' : Engine} {l : List Entry}

theorem Engine.passEnds_convert (h : Engine.PassEnds .convert st e e' (.ok l)) :
    e'.pos = .finished (.direct l) := by
  obtain ⟨p, w, rfl⟩ := h
  rfl

theorem Engine.passEnds_direct_zero (h : Engine.PassEnds .select 0#32 e e' (.ok l))
    (hpass : e.pass = .direct) : e'.pos = .finished (.direct l) := by
  obtain ⟨p, w, rfl⟩ := h
  simp [Engine.passOk, Engine.moved, hpass]

theorem Engine.passEnds_direct (h : Engine.PassEnds .select st e e' (.ok l))
    (hpass : e.pass = .direct) (hst : st ≠ 0#32) :
    e'.pos = .start ∧ e'.pass = .reject ∧ e'.direct = l := by
  obtain ⟨p, w, rfl⟩ := h
  simp [Engine.passOk, Engine.moved, hpass, hst]

theorem Engine.passEnds_reject (h : Engine.PassEnds .select st e e' (.ok l))
    (hpass : e.pass = .reject) :
    e'.pos = .start ∧ e'.pass = .accept ∧ e'.direct = e.direct ∧ e'.reject = l := by
  obtain ⟨p, w, rfl⟩ := h
  simp [Engine.passOk, Engine.moved, hpass]

theorem Engine.passEnds_accept (h : Engine.PassEnds .select st e e' (.ok l))
    (hpass : e.pass = .accept) :
    e'.pos = .compare ∧ e'.direct = e.direct ∧ e'.reject = e.reject ∧ e'.accept = l := by
  obtain ⟨p, w, rfl⟩ := h
  simp [Engine.passOk, Engine.moved, hpass]

end

section
variable (st fin : Word)

/-- CONVERT's one pass gives its result. -/
theorem Engine.reaches_convert : ∃ e', e'.pos = .finished (convertCmd st fin) ∧
    Engine.Reaches .convert st fin 6740 Engine.init e' := by
  obtain ⟨e', hends, hreach⟩ := Engine.reaches_passEnds .convert st fin Engine.init rfl
  refine ⟨e', ?_, hreach.mono (by decide)⟩
  change Engine.PassEnds .convert st Engine.init e' (convert st fin) at hends
  cases hconv : convert st fin with
  | fail c =>
    rw [hconv] at hends
    rw [convertCmd_of_fail hconv]
    exact hends
  | ok l =>
    rw [hconv] at hends
    rw [convertCmd_of_ok hconv]
    exact Engine.passEnds_convert hends

/-- The passes of the alternatives start at address 0 and succeed, and the comparison follows
(41_select.md R161 lines 4 to 7). -/
theorem Engine.reaches_chooseRules {e : Engine} (hpos : e.pos = .start)
    (hpass : e.pass = .reject) :
    ∃ r a e', convert 0#32 (st - 1#32) = .ok r ∧ convert 0#32 fin = .ok a ∧
      e'.pos = .finished (chooseRules e.direct r a) ∧ e.Reaches .select st fin 4491 e' := by
  obtain ⟨r, hr⟩ := exists_convert_zero_ok (st - 1#32)
  obtain ⟨a, ha⟩ := exists_convert_zero_ok fin
  obtain ⟨e₁, hends₁, hreach₁⟩ := Engine.reaches_passEnds .select st fin e hpos
  rw [hpass] at hends₁
  change Engine.PassEnds .select st e e₁ (convert 0#32 (st - 1#32)) at hends₁
  rw [hr] at hends₁
  obtain ⟨hpos₁, hpass₁, hdirect₁, hreject₁⟩ := Engine.passEnds_reject hends₁ hpass
  obtain ⟨e₂, hends₂, hreach₂⟩ := Engine.reaches_passEnds .select st fin e₁ hpos₁
  rw [hpass₁] at hends₂
  change Engine.PassEnds .select st e₁ e₂ (convert 0#32 fin) at hends₂
  rw [ha] at hends₂
  obtain ⟨hpos₂, hdirect₂, hreject₂, haccept₂⟩ := Engine.passEnds_accept hends₂ hpass₁
  have htick : e₂.tick .select st fin =
      { e₂ with pos := .finished (chooseRules e.direct r a) } := by
    rw [Engine.tick, hpos₂]
    simp only [hdirect₂, hdirect₁, hreject₂, hreject₁, haccept₂]
  exact ⟨r, a, _, hr, ha, rfl, (hreach₁.trans hreach₂).trans (.step htick (.refl 0 _))⟩

/-- SELECT's passes and its comparison give its result. -/
theorem Engine.reaches_select : ∃ e', e'.pos = .finished (selectCmd st fin) ∧
    Engine.Reaches .select st fin 6740 Engine.init e' := by
  obtain ⟨e, hends, hreach⟩ := Engine.reaches_passEnds .select st fin Engine.init rfl
  change Engine.PassEnds .select st Engine.init e (convert st fin) at hends
  cases hconv : convert st fin with
  | fail c =>
    rw [hconv] at hends
    rw [selectCmd_of_fail hconv]
    exact ⟨e, hends, hreach.mono (by decide)⟩
  | ok d =>
    rw [hconv] at hends
    by_cases hst : st = 0#32
    · subst hst
      rw [selectCmd_zero hconv]
      exact ⟨e, Engine.passEnds_direct_zero hends rfl, hreach.mono (by decide)⟩
    · obtain ⟨hpos, hpass, rfl⟩ := Engine.passEnds_direct hends rfl hst
      obtain ⟨r, a, e', hr, ha, hpos', hreach'⟩ :=
        Engine.reaches_chooseRules st fin hpos hpass
      rw [selectCmd_of_ok hst hconv hr ha]
      exact ⟨e', hpos', (hreach.trans hreach').mono (by decide)⟩

end

/-- Settles O45: each command's passes end as its `convert` does. -/
theorem engineReachesTheResult : Obligations.EngineReachesTheResult := by
  unfold Obligations.EngineReachesTheResult
  intro op st fin
  obtain ⟨e', hpos, k, hk, rfl⟩ : ∃ e', e'.pos = .finished (computeResult op st fin) ∧
      Engine.Reaches op st fin 6740 Engine.init e' := by
    cases op with
    | convert => exact Engine.reaches_convert st fin
    | select => exact Engine.reaches_select st fin
  exact ⟨k, hk, hpos⟩

section
variable {op : Instr} {st fin : Word} {e : Engine}

/-- A finished engine stays as it is. -/
theorem Engine.tick_finished {r : CmdResult} (h : e.pos = .finished r) :
    e.tick op st fin = e := by
  simp only [Engine.tick, h]

theorem Engine.iterate_tick_finished {r : CmdResult} (h : e.pos = .finished r) (k : Nat) :
    (Engine.tick op st fin)^[k] e = e :=
  Function.iterate_fixed (Engine.tick_finished h) k

theorem Engine.passOk_list (op : Instr) (st : Word) (e : Engine) :
    (Engine.passOk op st e).list = e.list := by
  unfold Engine.passOk
  split
  case h_2 => split <;> rfl
  all_goals rfl

/-- The capacity check guards the one line that appends (40_convert.md R121 line 13). -/
theorem Engine.length_list_tick_le (h : e.list.length ≤ 32) :
    (e.tick op st fin).list.length ≤ 32 := by
  unfold Engine.tick
  split
  case h_1 => split <;> simp [h]
  case h_2 => split <;> simp [h, Engine.passOk_list]
  case h_3 | h_4 => split <;> exact h
  case h_5 =>
    unfold Engine.appendEntry
    split
    next => exact h
    next hfree =>
      have hroom : (e.list ++ [e.work.entry]).length ≤ 32 := by
        rw [List.length_append, List.length_singleton]
        exact Nat.lt_of_le_of_ne h hfree
      split
      next => rw [Engine.passOk_list]; exact hroom
      next => exact hroom
  case h_6 | h_7 => exact h

end

/-- Settles O46: no micro-step makes the list longer than the capacity; and the engine, which stays
where it has finished, has finished with the command's result. -/
theorem engineResultIsTheCommandsResult : Obligations.EngineResultIsTheCommandsResult := by
  unfold Obligations.EngineResultIsTheCommandsResult
  intro op st fin k
  refine ⟨?_, fun r hr => ?_⟩
  · induction k with
    | zero => exact Nat.zero_le _
    | succ k ih =>
      rw [Function.iterate_succ_apply']
      exact Engine.length_list_tick_le ih
  · obtain ⟨k', -, hk'⟩ := engineReachesTheResult op st fin
    have hsame : (Engine.tick op st fin)^[k] Engine.init =
        (Engine.tick op st fin)^[k'] Engine.init := by
      rw [← Engine.iterate_tick_finished (op := op) (st := st) (fin := fin) hr k',
        ← Function.iterate_add_apply, Nat.add_comm, Function.iterate_add_apply,
        Engine.iterate_tick_finished hk']
    rw [hsame, hk'] at hr
    exact (EnginePos.finished.inj hr).symm

/-- Settles O28: under the guard the engine's first micro-step is its last, and otherwise the first
leads to the outer loop. -/
theorem wraparoundGuard : Obligations.WraparoundGuard := by
  unfold Obligations.WraparoundGuard
  intro st fin
  refine ⟨?_, fun op => ⟨fun hguard k => ?_, fun hguard => ⟨1, ?_⟩⟩⟩
  · rcases convert_spec st fin with ⟨hfin, hst, hres⟩ | ⟨l, m, hg, hres, -⟩ | ⟨l, m, hg, hres, -⟩
    · exact iff_of_true hres ⟨hfin, hst⟩
    · rw [hres]
      exact iff_of_false nofun fun h => h.2 (hg h.1)
    · rw [hres]
      exact iff_of_false nofun fun h => h.2 (hg h.1)
  · have hfirst : Engine.tick op st fin Engine.init =
        { Engine.init with pos := .finished (.fail .rangeTooLarge) } := if_pos hguard
    cases k with
    | zero => exact ⟨rfl, .inl rfl⟩
    | succ k =>
      rw [Function.iterate_succ_apply, hfirst, Engine.iterate_tick_finished rfl]
      exact ⟨rfl, .inr rfl⟩
  · have hfirst : Engine.tick op st fin Engine.init =
        Engine.moved Engine.init .outer { Engine.init.work with patt := fin } := if_neg hguard
    rw [Function.iterate_one, hfirst]
    rfl

end Sys2Proof.Machine
end

section
/-! The capacity of 32 entries at its edge (40_convert.md R140): O35. -/

namespace Sys2Proof.Machine

/-- The result on `[0, MAX - 1]`: below the top, blocks of doubling size down to 0. -/
theorem convert_zero_pred_max : convert 0#32 0xFFFFFFFE#32 =
    .ok ((List.range 32).map fun k => ⟨ones (k + 1), ones k⟩) := by decide +kernel

/-- The result on `[1, 2^31]`: the top address, then blocks of halving size down to 1. -/
theorem convert_one_two_pow : convert 1#32 0x80000000#32 =
    .ok (⟨0x80000000#32, maxWord⟩ ::
      (List.range 31).map fun k => ⟨1#32 <<< (30 - k), ones (30 - k)⟩) := by decide +kernel

/-- Settles O35: two intervals that fail, by evaluation, and two whose lists have 32 entries. -/
theorem capacityCheckIsReachable : Obligations.CapacityCheckIsReachable := by
  unfold Obligations.CapacityCheckIsReachable
  exact ⟨witness_convert_fails, by decide +kernel, ⟨_, convert_zero_pred_max, by simp⟩,
    ⟨_, convert_one_two_pow, by simp⟩⟩

end Sys2Proof.Machine
end
